-- ==== Sys2Proof/Word.lean ====
section
/-! DEFINITION. The two word types of the block: bytes and 32-bit register values (00_scope.md R6 to R8). -/

namespace Sys2Proof

/-- A byte of a byte sequence (R8). -/
abbrev Byte := BitVec 8

/-- A 32-bit register value (R6); its arithmetic wraps modulo 2^32 (R7). -/
abbrev Word := BitVec 32

end Sys2Proof
end

