-- ==== Sys2Proof/Syntax.lean ====
section
/-! DEFINITION. The commands of the block: one constructor per row of spec/opcode_table.json (30_encoding.md R73).
A command carries the fields it uses; a field it does not use is no part of it (R72). -/

namespace Sys2Proof

/-- The commands of the opcode map R73. `b` is field B, a byte; `n` is field N, a count (R70, R72). -/
inductive Instr where
  /-- CRC_INIT, OP 0x01 (R110). -/
  | crcInit
  /-- CRC_BYTE, OP 0x02 (R111). -/
  | crcByte (b : Byte)
  /-- CRC_WORD, OP 0x03 (R112). -/
  | crcWord
  /-- CRC_UPDATE, OP 0x04 (R113). -/
  | crcUpdate (n : Nat)
  /-- CRC_FULL, OP 0x05 (R114). -/
  | crcFull (n : Nat)
  /-- CRC_FIXED16, OP 0x06 (R115). -/
  | crcFixed16 (n : Nat)
  /-- CRC_DATAPACK, OP 0x07 (R116). -/
  | crcDatapack (n : Nat)
  /-- CRC_COMMAND, OP 0x08 (R117). -/
  | crcCommand (b : Byte)
  /-- ENC_COMMAND, OP 0x10 (R142). -/
  | encCommand (b : Byte)
  /-- ENC_DATA, OP 0x11 (R143). -/
  | encData (n : Nat)
  /-- ENC_HEADER, OP 0x12 (R144). -/
  | encHeader
  /-- ENC_BULK_HEADER, OP 0x13 (R145). -/
  | encBulkHeader
  /-- DEC_RESET, OP 0x20 (R170). -/
  | decReset
  /-- DEC_BYTE, OP 0x21 (R171). -/
  | decByte (b : Byte)
  deriving DecidableEq, Repr

end Sys2Proof
end

