-- ==== Sys2Proof/WellFormed.lean ====
section
/-! DEFINITION. Which commands a command word can carry: N is a 9-bit field (30_encoding.md R70, R72), so a count is
at most 511. B is a byte by its type. A count of 257 to 511 is well formed: the command runs and answers ERR_LENGTH. -/

namespace Sys2Proof

/-- The count fits the field N, bits 24:16 (R70). -/
def countFits (n : Nat) : Bool := decide (n < 512)

/-- The command can be written as one command word (R70). -/
def Instr.wellFormed : Instr → Bool
  | .crcInit => true
  | .crcByte _ => true
  | .crcWord => true
  | .crcUpdate n => countFits n
  | .crcFull n => countFits n
  | .crcFixed16 n => countFits n
  | .crcDatapack n => countFits n
  | .crcCommand _ => true
  | .encCommand _ => true
  | .encData n => countFits n
  | .encHeader => true
  | .encBulkHeader => true
  | .decReset => true
  | .decByte _ => true

/-- `i` is a command some command word carries. -/
abbrev WellFormed (i : Instr) : Prop := i.wellFormed = true

end Sys2Proof
end

