-- ==== Sys2Proof/Decode.lean ====
section
/-! DEFINITION. The decoder of a command word (30_encoding.md R70 to R75), total on any bytes and rejecting by name,
and after it the encoder, written from the same opcode map R73. -/

namespace Sys2Proof

/-- Why a word or a byte list is no command. -/
inductive DecodeError where
  /-- Fewer than the four bytes of a command word (R70). -/
  | tooShort (have_ : Nat)
  /-- RSV, bits 31:25, is not zero (R71, R74). -/
  | reservedBits (rsv : BitVec 7)
  /-- OP is not in the opcode map R73 (R74). -/
  | unknownOpcode (op : Byte)
  deriving DecidableEq, Repr

/-- Field OP of R70. -/
def fieldOp (w : Word) : Byte := w.extractLsb' 0 8

/-- Field B of R70. -/
def fieldB (w : Word) : Byte := w.extractLsb' 8 8

/-- Field N of R70. -/
def fieldN (w : Word) : BitVec 9 := w.extractLsb' 16 9

/-- Field RSV of R70. -/
def fieldRsv (w : Word) : BitVec 7 := w.extractLsb' 25 7

/-- The opcode map R73: the command that opcode `op` selects, with the operands B and N it uses (R72). -/
def opcodeMap (op b : Byte) (n : Nat) : Option Instr :=
  match op.toNat with
  | 0x01 => some .crcInit
  | 0x02 => some (.crcByte b)
  | 0x03 => some .crcWord
  | 0x04 => some (.crcUpdate n)
  | 0x05 => some (.crcFull n)
  | 0x06 => some (.crcFixed16 n)
  | 0x07 => some (.crcDatapack n)
  | 0x08 => some (.crcCommand b)
  | 0x10 => some (.encCommand b)
  | 0x11 => some (.encData n)
  | 0x12 => some .encHeader
  | 0x13 => some .encBulkHeader
  | 0x20 => some .decReset
  | 0x21 => some (.decByte b)
  | _ => none

/-- The command a word written to CMD selects: RSV is checked first, then OP (R71, R216). -/
def decodeWord (w : Word) : Except DecodeError Instr :=
  if fieldRsv w ≠ 0 then .error (.reservedBits (fieldRsv w))
  else match opcodeMap (fieldOp w) (fieldB w) (fieldN w).toNat with
    | some i => .ok i
    | none => .error (.unknownOpcode (fieldOp w))

/-- The command word whose byte lanes are `b0` (bits 7:0) to `b3` (bits 31:24): the bus is little-endian (R53). -/
def wordOfLanes (b0 b1 b2 b3 : Byte) : Word := b3 ++ b2 ++ b1 ++ b0

/-- The first command of a byte list and the bytes after it. Every command is four bytes (R70, R75). -/
def decodeBytes : List Byte → Except DecodeError (Instr × List Byte)
  | b0 :: b1 :: b2 :: b3 :: rest =>
    match decodeWord (wordOfLanes b0 b1 b2 b3) with
    | .ok i => .ok (i, rest)
    | .error e => .error e
  | short => .error (.tooShort short.length)

/-- The byte lanes of a word, bits 7:0 first (R53). -/
def lanesOf (w : Word) : List Byte :=
  [w.extractLsb' 0 8, w.extractLsb' 8 8, w.extractLsb' 16 8, w.extractLsb' 24 8]

/-- The word of `nbits` table bits `w`; every bit above them is zero. -/
def tableWord (nbits w : Nat) : Word := BitVec.ofNat 32 (w % 2 ^ nbits)

/-- The command the decoder reads from the bits of an opcode-table row, laid out as four little-endian bytes. -/
def decodeTableWord (nbits w : Nat) : Option Instr :=
  match decodeBytes (lanesOf (tableWord nbits w)) with
  | .ok (i, _) => some i
  | .error _ => none

/-- The opcode of a command (R73). -/
def opcodeOf : Instr → Byte
  | .crcInit => 0x01
  | .crcByte _ => 0x02
  | .crcWord => 0x03
  | .crcUpdate _ => 0x04
  | .crcFull _ => 0x05
  | .crcFixed16 _ => 0x06
  | .crcDatapack _ => 0x07
  | .crcCommand _ => 0x08
  | .encCommand _ => 0x10
  | .encData _ => 0x11
  | .encHeader => 0x12
  | .encBulkHeader => 0x13
  | .decReset => 0x20
  | .decByte _ => 0x21

/-- The mnemonic of a command (R73, R76). -/
def mnemonicOf : Instr → String
  | .crcInit => "CRC_INIT"
  | .crcByte _ => "CRC_BYTE"
  | .crcWord => "CRC_WORD"
  | .crcUpdate _ => "CRC_UPDATE"
  | .crcFull _ => "CRC_FULL"
  | .crcFixed16 _ => "CRC_FIXED16"
  | .crcDatapack _ => "CRC_DATAPACK"
  | .crcCommand _ => "CRC_COMMAND"
  | .encCommand _ => "ENC_COMMAND"
  | .encData _ => "ENC_DATA"
  | .encHeader => "ENC_HEADER"
  | .encBulkHeader => "ENC_BULK_HEADER"
  | .decReset => "DEC_RESET"
  | .decByte _ => "DEC_BYTE"

/-- The value of field B: the byte operand, 0 where the command uses none (R76). -/
def byteField : Instr → Byte
  | .crcByte b => b
  | .crcCommand b => b
  | .encCommand b => b
  | .decByte b => b
  | .crcInit => 0
  | .crcWord => 0
  | .crcUpdate _ => 0
  | .crcFull _ => 0
  | .crcFixed16 _ => 0
  | .crcDatapack _ => 0
  | .encData _ => 0
  | .encHeader => 0
  | .encBulkHeader => 0
  | .decReset => 0

/-- The value of field N: the count operand, 0 where the command uses none (R76). -/
def countField : Instr → Nat
  | .crcUpdate n => n
  | .crcFull n => n
  | .crcFixed16 n => n
  | .crcDatapack n => n
  | .encData n => n
  | .crcInit => 0
  | .crcByte _ => 0
  | .crcWord => 0
  | .crcCommand _ => 0
  | .encCommand _ => 0
  | .encHeader => 0
  | .encBulkHeader => 0
  | .decReset => 0
  | .decByte _ => 0

/-- The command word `RSV ++ N ++ B ++ OP` with RSV = 0 (R70); an operand the command does not use is 0 (R76). -/
def encode (i : Instr) : Word :=
  (0 : BitVec 7) ++ BitVec.ofNat 9 (countField i) ++ byteField i ++ opcodeOf i

/-- The four bytes of a command word as the bus lays them out (R53, R70). -/
def encodeBytes (i : Instr) : List Byte := lanesOf (encode i)

end Sys2Proof
end

