-- ==== Sys2Proof/Config.lean ====
section
/-! DEFINITION. The implementation parameters of 00_scope.md R5 and the parameters the spec leaves OPEN
(93_implementation_defined.md section 2). An OPEN parameter is an opaque constant: no proof can see its value. -/

namespace Sys2Proof

/-- CRC_INIT of R5: the start value of every whole-input CRC (R2, R104). -/
def Config.crcInit : Word := 0xFFFFFFFF

/-- CRC_POLY of R5 (R2). -/
def Config.crcPoly : Word := 0x04C11DB7

/-- FIXED16_WINDOW of R5 (R106). -/
def Config.fixed16Window : Nat := 16

/-- DATAPACK_WINDOW of R5 (R107). -/
def Config.datapackWindow : Nat := 256

/-- SOF of R5: `'$'` (R78). -/
def Config.sof : Byte := 0x24

/-- The first TERMINATOR byte of R5 (R78). -/
def Config.termCr : Byte := 0x0D

/-- The second TERMINATOR byte of R5 (R78). -/
def Config.termLf : Byte := 0x0A

/-- FRAME_OVERHEAD of R5 (R78). -/
def Config.frameOverhead : Nat := 10

/-- MAX_DATA_PAYLOAD of R5 (R84). -/
def Config.maxDataPayload : Nat := 256

/-- IBUF_SIZE of R5 (R26). -/
def Config.ibufSize : Nat := 256

/-- OBUF_SIZE of R5 (R27): the largest frame, 256 + 10 = 266 bytes (R88). -/
def Config.obufSize : Nat := Config.maxDataPayload + Config.frameOverhead

/-- DBUF_SIZE of R5 (R32). -/
def Config.dbufSize : Nat := 256

/-- The window size of R5 (R50): offsets 0x000 to 0xFFF. -/
def Config.windowSize : Nat := 0x1000

/-- ENGINE_BASE, OPEN (R5, R50; D2): the bus address of offset 0 of the register window. -/
opaque Config.engineBase : Nat

/-- How the platform asserts reset (R240; 93_implementation_defined.md section 2). -/
inductive ResetSource where
  | resetInput
  | powerOn
  | both
  deriving DecidableEq, Repr, Inhabited

/-- RESET_SOURCE, OPEN (R240; D30). No rule depends on it. -/
opaque Config.resetSource : ResetSource

/-- A free value for a case no run reaches: what the decoder computes in state CRC3 when DTYPE holds none of the
four packet types. R178 gives the computed CRC for types 0 to 3 only, and R173 lets no other type pass (log entry 7). -/
opaque Config.openTypeCrc : Byte → List Byte → Word

end Sys2Proof
end

