-- ==== Sys2Proof/Machine/Bytes.lean ====
section
/-! DEFINITION. Byte sequences and byte orders: the primitives of 00_scope.md R8 and the zero padding of
40_crc.md R105 and R106. -/

namespace Sys2Proof.Machine

/-- `zeros(n)` of R8. -/
def zeros (n : Nat) : List Byte := List.replicate n 0

/-- `le16(v)` of R8: the low byte first. -/
def le16 (v : BitVec 16) : List Byte := [v.extractLsb' 0 8, v.extractLsb' 8 8]

/-- `le32(v)` of R8: the lowest byte first. -/
def le32 (v : Word) : List Byte :=
  [v.extractLsb' 0 8, v.extractLsb' 8 8, v.extractLsb' 16 8, v.extractLsb' 24 8]

/-- `be32(b0, b1, b2, b3)` of R8: `b0` is bits 31:24. -/
def be32 (b0 b1 b2 b3 : Byte) : Word := b0 ++ b1 ++ b2 ++ b3

/-- The value whose little-endian bytes are `b0, b1, b2, b3` (R8): `b3` is bits 31:24. -/
def ofLe32 (b0 b1 b2 b3 : Byte) : Word := be32 b3 b2 b1 b0

/-- Byte `i` of a sequence, 0 beyond its end (the spec never reads there). -/
def byteAt (s : List Byte) (i : Nat) : Byte := s.getD i 0

/-- `u16le(s, i)` of R8. -/
def u16le (s : List Byte) (i : Nat) : BitVec 16 := byteAt s (i + 1) ++ byteAt s i

/-- `u32le(s, i)` of R8. -/
def u32le (s : List Byte) (i : Nat) : Word :=
  ofLe32 (byteAt s i) (byteAt s (i + 1)) (byteAt s (i + 2)) (byteAt s (i + 3))

/-- `pad4(s)` of R105: zero bytes up to the next multiple of four. -/
def pad4 (s : List Byte) : List Byte := s ++ zeros ((4 - s.length % 4) % 4)

/-- `window(s, n)` of R106: the first `n` bytes of `s`, zeros where `s` is shorter. -/
def window (s : List Byte) (n : Nat) : List Byte := s.take n ++ zeros (n - min s.length n)

end Sys2Proof.Machine
end

