-- ==== Sys2Proof/Machine/State.lean ====
section
/-! DEFINITION. The state of the block (10_state.md R20 to R34) as plain data, the host events it waits for, the
reasons a step can stop, and the state after reset (70_reset_and_hazards.md R241). -/

namespace Sys2Proof.Machine

/-- OPERR, the result code of the last command (60_exceptions.md R211). Codes 4 to 15 are never produced. -/
inductive OpErr where
  | ok
  | errOpcode
  | errLength
  | errArg
  deriving DecidableEq, Repr

/-- DEVENT, the last event of the frame decoder (60_exceptions.md R214). Codes 8 to 15 are never produced. -/
inductive DEvent where
  | noEvent
  | frameOk
  | badType
  | reservedType
  | badLength
  | badCrc
  | badCr
  | badLf
  deriving DecidableEq, Repr

/-- DSTATE, the frame byte the decoder expects next (10_state.md R34). -/
inductive DState where
  | hunt
  | typ
  | lenLo
  | lenHi
  | payload
  | crc0
  | crc1
  | crc2
  | crc3
  | cr
  | lf
  deriving DecidableEq, Repr

/-- The kinds of BusError (60_exceptions.md R215). -/
inductive BusErrorKind where
  | unmapped
  | width
  | align
  | readonly
  deriving DecidableEq, Repr

/-- What the platform and the host do to the block, one at a time in this order (20_memory.md R59): a read or write
of `n` bytes at a window offset (00_scope.md R9, `MemRead` and `MemWrite`), or the reset event (R240). -/
inductive HostEvent where
  /-- `MemRead(off, n)`. -/
  | read (off n : Nat)
  /-- `MemWrite(off, n, v)`. An 8-bit write carries its byte in bits 7:0 of `v` (log entry 5). -/
  | write (off n : Nat) (v : Word)
  /-- The reset event, asserted by the platform between two accesses (R240). -/
  | reset
  deriving DecidableEq, Repr

/-- The window's buffer bytes: the nonzero bytes by window offset, offsets rising. A byte not listed is 0, the reset
value of every byte of IBUF, OBUF and DBUF (R26, R27, R32). -/
abbrev Memory := List Host.Cell

/-- The state of the block. The first fifteen fields are the spec's; the last two are the model's own. -/
structure State where
  /-- CMD, the last command word written (R22). -/
  cmd : Word
  /-- ARG0 (R21). -/
  arg0 : Word
  /-- ARG1 (R21). -/
  arg1 : Word
  /-- ACC, the CRC accumulator (R20). -/
  acc : Word
  /-- STATUS.OPERR (R23, R211). -/
  operr : OpErr
  /-- STATUS.DEVENT (R23, R214). -/
  devent : DEvent
  /-- STATUS.DSTATE (R23, R34). -/
  dstate : DState
  /-- FCRC (R24). -/
  fcrc : Word
  /-- OLEN (R25). -/
  olen : Word
  /-- DTYPE bits 7:0; bits 31:8 read 0 (R28). -/
  dtype : Byte
  /-- DLEN bits 15:0; bits 31:16 read 0 (R29). -/
  dlen : BitVec 16
  /-- DCRC (R30). -/
  dcrc : Word
  /-- DCALC (R31). -/
  dcalc : Word
  /-- DCNT, hidden, 9 bits (R33). -/
  dcnt : BitVec 9
  /-- IBUF, OBUF and DBUF by window offset (R26, R27, R32, R51). -/
  mem : Memory
  /-- The model's own: the host events not yet taken, the next one first (log entry 1). -/
  pending : List HostEvent
  /-- The model's own: the data the last host event returned to the host, if it was a read (log entry 2). -/
  readData : Option Word
  deriving DecidableEq, Repr

/-- The reset values of R241. No host event is pending: the block waits for its first access (R242). -/
def State.reset : State where
  cmd := 0
  arg0 := 0
  arg1 := 0
  acc := 0xFFFFFFFF
  operr := .ok
  devent := .noEvent
  dstate := .hunt
  fcrc := 0
  olen := 0
  dtype := 0
  dlen := 0
  dcrc := 0
  dcalc := 0
  dcnt := 0
  mem := []
  pending := []
  readData := none

/-- Why a step stops with a fault. -/
inductive Fault where
  /-- Raised by a host access that fails a check of 20_memory.md R52; "a model treats an access that raises a BusError
  as a fault of the host program" (R215). No command raises it. Safe: the block itself would go on with the host's next
  access, its state unchanged (R56). -/
  | busError (kind : BusErrorKind)
  deriving DecidableEq, Repr

/-- Why a step refuses. -/
inductive Refusal where
  /-- Raised by an arm of `exec` for a command that has no meaning yet; no arm does. Safe. -/
  | notModelled (mnemonic : String)
  deriving DecidableEq, Repr

/-- The outcome of a step or of a command. -/
abbrev Outcome := Host.Outcome State Fault Refusal

end Sys2Proof.Machine
end

