-- ==== Sys2Proof/Machine/Flags.lean ====
section
/-! DEFINITION. The codes of the STATUS fields, which are the block's only flags (10_state.md R23), the STATUS word,
and the two ways a command writes OPERR (30_encoding.md R71). -/

namespace Sys2Proof.Machine

/-- The OPERR code (R211). -/
def operrCode : OpErr → BitVec 4
  | .ok => 0
  | .errOpcode => 1
  | .errLength => 2
  | .errArg => 3

/-- The DEVENT code (R214). -/
def deventCode : DEvent → BitVec 4
  | .noEvent => 0
  | .frameOk => 1
  | .badType => 2
  | .reservedType => 3
  | .badLength => 4
  | .badCrc => 5
  | .badCr => 6
  | .badLf => 7

/-- The DSTATE value (R34). -/
def dstateCode : DState → BitVec 4
  | .hunt => 0
  | .typ => 1
  | .lenLo => 2
  | .lenHi => 3
  | .payload => 4
  | .crc0 => 5
  | .crc1 => 6
  | .crc2 => 7
  | .crc3 => 8
  | .cr => 9
  | .lf => 10

/-- The STATUS register (R23): OPERR in bits 3:0, DEVENT in 7:4, DSTATE in 11:8, and 31:12 read as 0. -/
def statusWord (s : State) : Word :=
  (0 : BitVec 20) ++ dstateCode s.dstate ++ deventCode s.devent ++ operrCode s.operr

/-- A command that ran: `OPERR <- OK` (R71). -/
def succeed (s : State) : Outcome := .next { s with operr := .ok }

/-- A command whose check failed: OPERR holds the code and nothing else changes (R71, R212). -/
def reject (code : OpErr) (s : State) : Outcome := .next { s with operr := code }

/-- A word that is no command: `OPERR <- ERR_OPCODE` and nothing else (R71, R74). No trap and no BusError. -/
def illegalWord (s : State) : Outcome := reject .errOpcode s

end Sys2Proof.Machine
end

