-- ==== Sys2Proof/Machine/Ops.lean ====
section
/-! DEFINITION. The named operations over the buffer memory and the register window: one load and one store, the
window map R51, the access checks R52, and the bus read and write of 20_memory.md. -/

namespace Sys2Proof.Machine

/-! ### Buffer memory -/

/-- The byte at a window offset. An unlisted byte is 0 (R26, R27, R32). -/
def Memory.read : Memory → Nat → Byte
  | [], _ => 0
  | (k, b) :: rest, a => if k = a then b else Memory.read rest a

/-- The cells of the bytes `bs` at offsets `lo`, `lo + 1`, …; a zero byte has no cell. -/
def cellsAt : Nat → List Byte → Memory
  | _, [] => []
  | lo, b :: bs => if b = 0 then cellsAt (lo + 1) bs else (lo, b) :: cellsAt (lo + 1) bs

/-- Store the bytes `bs` at offsets `lo`, `lo + 1`, …. -/
def Memory.store (m : Memory) (lo : Nat) (bs : List Byte) : Memory :=
  m.filter (fun c => decide (c.1 < lo)) ++ cellsAt lo bs ++ m.filter (fun c => decide (lo + bs.length ≤ c.1))

/-- The `n` bytes at offsets `lo`, `lo + 1`, …. -/
def Memory.load (m : Memory) : Nat → Nat → List Byte
  | _, 0 => []
  | lo, n + 1 => m.read lo :: m.load (lo + 1) n

/-- The canonical form above a bound: offsets strictly rising from `lo`, and no listed byte 0. -/
def wfFrom : Nat → Memory → Bool
  | _, [] => true
  | lo, (k, b) :: rest => decide (lo ≤ k) && decide (b ≠ 0) && wfFrom (k + 1) rest

/-- The canonical form of the buffer memory: equal contents are equal lists. -/
def Memory.wf (m : Memory) : Bool := wfFrom 0 m

/-! ### The register window (R51) -/

/-- The locations of the window map. -/
inductive Loc where
  | cmd
  | status
  | arg0
  | arg1
  | acc
  | fcrc
  | olen
  | dtype
  | dlen
  | dcrc
  | dcalc
  | ibuf
  | obuf
  | obufPad
  | dbuf
  deriving DecidableEq, Repr

/-- One row of the window map: a location, its offsets, whether the host may write it, and the access widths in bytes. -/
structure Region where
  loc : Loc
  base : Nat
  size : Nat
  writable : Bool
  widths : List Nat
  deriving DecidableEq, Repr

/-- Offset of IBUF[0] (R26). -/
def ibufBase : Nat := 0x100

/-- Offset of OBUF[0] (R27). -/
def obufBase : Nat := 0x200

/-- Offset of DBUF[0] (R32). -/
def dbufBase : Nat := 0x400

/-- A register row: four offsets, 32-bit accesses only (R51). -/
def registerRow (loc : Loc) (base : Nat) (writable : Bool) : Region := ⟨loc, base, 4, writable, [4]⟩

/-- A buffer row: 8-bit and 32-bit accesses (R51). -/
def bufferRow (loc : Loc) (base size : Nat) (writable : Bool) : Region := ⟨loc, base, size, writable, [1, 4]⟩

/-- The window map R51. -/
def windowMap : List Region := [
  registerRow .cmd 0x000 true,
  registerRow .status 0x004 false,
  registerRow .arg0 0x008 true,
  registerRow .arg1 0x00C true,
  registerRow .acc 0x010 false,
  registerRow .fcrc 0x014 false,
  registerRow .olen 0x018 false,
  registerRow .dtype 0x01C false,
  registerRow .dlen 0x020 false,
  registerRow .dcrc 0x024 false,
  registerRow .dcalc 0x028 false,
  bufferRow .ibuf ibufBase Config.ibufSize true,
  bufferRow .obuf obufBase Config.obufSize false,
  bufferRow .obufPad 0x30A 2 false,
  bufferRow .dbuf dbufBase Config.dbufSize false]

/-- The row of an offset; an offset with none is unmapped (R51). -/
def regionAt (off : Nat) : Option Region :=
  windowMap.find? fun r => decide (r.base ≤ off) && decide (off < r.base + r.size)

/-- The checks of R52 in the order of R56: UNMAPPED, WIDTH, ALIGN, READONLY. -/
def busCheck (off n : Nat) (isWrite : Bool) : Except BusErrorKind Region :=
  match regionAt off with
  | none => .error .unmapped
  | some r =>
    if !r.widths.contains n then .error .width
    else if n = 4 ∧ off % 4 ≠ 0 then .error .align
    else if isWrite && !r.writable then .error .readonly
    else .ok r

/-- A buffer byte as the host reads it: the two pad bytes after OBUF read 0 (R51, R55). -/
def windowByte (s : State) (off : Nat) : Byte :=
  if off = 0x30A ∨ off = 0x30B then 0 else s.mem.read off

/-- A buffer read: one byte in bits 7:0, or four bytes with the lowest offset in bits 7:0 (R53). -/
def bufferRead (s : State) (off n : Nat) : Word :=
  if n = 1 then (windowByte s off).zeroExtend 32
  else ofLe32 (windowByte s off) (windowByte s (off + 1)) (windowByte s (off + 2)) (windowByte s (off + 3))

/-- The value an access of `n` bytes at offset `off`, inside location `loc`, reads (R20 to R34, R53). -/
def locRead (s : State) (loc : Loc) (off n : Nat) : Word :=
  match loc with
  | .cmd => s.cmd
  | .status => statusWord s
  | .arg0 => s.arg0
  | .arg1 => s.arg1
  | .acc => s.acc
  | .fcrc => s.fcrc
  | .olen => s.olen
  | .dtype => s.dtype.zeroExtend 32
  | .dlen => s.dlen.zeroExtend 32
  | .dcrc => s.dcrc
  | .dcalc => s.dcalc
  | .ibuf => bufferRead s off n
  | .obuf => bufferRead s off n
  | .obufPad => bufferRead s off n
  | .dbuf => bufferRead s off n

/-- The bytes an `n`-byte write of `v` stores, the lowest offset first (R53, R55). One byte is bits 7:0
of `v`, the model's reading (log entry 5). -/
def writtenBytes (n : Nat) (v : Word) : List Byte :=
  if n = 1 then [v.extractLsb' 0 8] else le32 v

/-- The state after a checked write of `v` to location `loc`. A write to CMD only stores the word here; the command
it issues runs after it (R22). A read-only location takes no write (R52). -/
def locWrite (s : State) (loc : Loc) (off n : Nat) (v : Word) : State :=
  match loc with
  | .cmd => { s with cmd := v }
  | .arg0 => { s with arg0 := v }
  | .arg1 => { s with arg1 := v }
  | .ibuf => { s with mem := s.mem.store off (writtenBytes n v) }
  | .status => s
  | .acc => s
  | .fcrc => s
  | .olen => s
  | .dtype => s
  | .dlen => s
  | .dcrc => s
  | .dcalc => s
  | .obuf => s
  | .obufPad => s
  | .dbuf => s

/-- `MemRead(off, n)` (R52): the value read, or the BusError. -/
def memRead (s : State) (off n : Nat) : Except BusErrorKind Word :=
  match busCheck off n false with
  | .error k => .error k
  | .ok r => .ok (locRead s r.loc off n)

/-- What a write leaves to do: nothing, or the command that the word written to CMD issues (R55). -/
inductive WriteEffect where
  | stored (s : State)
  | issues (w : Word) (s : State)
  deriving DecidableEq, Repr

/-- `MemWrite(off, n, v)` (R52): the state with the value stored, or the BusError, which changes nothing (R56). -/
def memWrite (s : State) (off n : Nat) (v : Word) : Except BusErrorKind WriteEffect :=
  match busCheck off n true with
  | .error k => .error k
  | .ok r =>
    if r.loc = .cmd then .ok (.issues v (locWrite s r.loc off n v))
    else .ok (.stored (locWrite s r.loc off n v))

/-! ### Host events -/

/-- The next host event is taken, and `d` is the data it returns to the host. -/
def endEvent (s : State) (rest : List HostEvent) (d : Option Word) : State :=
  { s with pending := rest, readData := d }

/-- The reset event: every element of the block takes its reset value (R240, R241). -/
def resetEvent (rest : List HostEvent) : State := { State.reset with pending := rest }

/-- `raise BusError(kind)`: the access ends with an error response (R215). The block has no other exception: it saves
nothing and transfers control nowhere (R220), and it has no return from one (R221). -/
def raiseBusError (kind : BusErrorKind) : Outcome := .fault (.busError kind)

/-- How the host goes on after a BusError: the access is over, no other state changed, no data came back (R56). -/
def afterBusError (s : State) : State := endEvent s s.pending.tail none

/-- The bus address of a window offset (R50). -/
def busAddress (off : Nat) : Nat := Config.engineBase + off

/-- The window offset a bus address selects (R50). An address below ENGINE_BASE is not the block's; an offset of 0x1000 or
more is unmapped like any other offset outside the map (R51). -/
def windowOffset (address : Nat) : Option Nat :=
  if Config.engineBase ≤ address then some (address - Config.engineBase) else none

/-- The host write that issues the command word `w` (30_encoding.md R70, R76). -/
def commandWrite (w : Word) : HostEvent := .write 0x000 4 w

end Sys2Proof.Machine
end

