-- ==== Sys2Proof/Machine/Operands.lean ====
section
/-! DEFINITION. The operands of the commands (30_encoding.md R72): the byte-sequence operand from IBUF, the two
32-bit operands, and the range check of N. Fields B and N come with the command. -/

namespace Sys2Proof.Machine

/-- `IBUF[0..n)` (R26, R72). -/
def ibufBytes (s : State) (n : Nat) : List Byte := s.mem.load ibufBase n

/-- `OBUF[0..n)` (R27). -/
def obufBytes (s : State) (n : Nat) : List Byte := s.mem.load obufBase n

/-- `DBUF[0..n)` (R32). -/
def dbufBytes (s : State) (n : Nat) : List Byte := s.mem.load dbufBase n

/-- ARG0 as an operand (R21, R72). -/
def arg0Operand (s : State) : Word := s.arg0

/-- ARG1 as an operand (R21, R72). -/
def arg1Operand (s : State) : Word := s.arg1

/-- Run `k` if `n` lies in `lo` to 256, else set ERR_LENGTH and change nothing else (R71, R211). -/
def withCount (lo n : Nat) (s : State) (k : Outcome) : Outcome :=
  if n < lo ∨ 256 < n then reject .errLength s else k

end Sys2Proof.Machine
end

