-- ==== Sys2Proof/Machine/Crc.lean ====
section
/-! DEFINITION. The eight CRC commands (40_crc.md section 2). They write ACC and OPERR only. -/

namespace Sys2Proof.Machine

/-- The common end of a CRC command: `ACC <- v; OPERR <- OK` (R110 to R117). -/
def putAcc (v : Word) (s : State) : Outcome := succeed { s with acc := v }

/-- CRC_INIT (R110). -/
def execCrcInit (s : State) : Outcome := putAcc Config.crcInit s

/-- CRC_BYTE (R111). -/
def execCrcByte (b : Byte) (s : State) : Outcome := putAcc (crcStep s.acc b) s

/-- CRC_WORD (R112): bits 31:24 of ARG0 are consumed first. -/
def execCrcWord (s : State) : Outcome := putAcc (crcWord s.acc (arg0Operand s)) s

/-- CRC_UPDATE (R113): the command pads its own final word. -/
def execCrcUpdate (n : Nat) (s : State) : Outcome :=
  withCount 0 n s (putAcc (crcRaw (pad4 (ibufBytes s n)) s.acc) s)

/-- CRC_FULL (R114). -/
def execCrcFull (n : Nat) (s : State) : Outcome :=
  withCount 0 n s (putAcc (crcFullImage (ibufBytes s n)) s)

/-- CRC_FIXED16 (R115). -/
def execCrcFixed16 (n : Nat) (s : State) : Outcome :=
  withCount 0 n s (putAcc (crcFixed16 (ibufBytes s n)) s)

/-- CRC_DATAPACK (R116). -/
def execCrcDatapack (n : Nat) (s : State) : Outcome :=
  withCount 0 n s (putAcc (crcFixedDatapack (ibufBytes s n)) s)

/-- CRC_COMMAND (R117): any byte is hashed. -/
def execCrcCommand (b : Byte) (s : State) : Outcome := putAcc (crcCommand b) s

end Sys2Proof.Machine
end

