-- ==== Sys2Proof/Machine/Frame.lean ====
section
/-! DEFINITION. The frame wire format (30_encoding.md section 2): the layout R78, the CRC window of each type R80,
the legal payload lengths, and the four encoder functions of the source that R146 speaks of. -/

namespace Sys2Proof.Machine

/-- PacketType Command (R79). -/
def typeCommand : Byte := 0

/-- PacketType Data (R79). -/
def typeData : Byte := 1

/-- PacketType Header (R79). -/
def typeHeader : Byte := 2

/-- PacketType BulkHeader (R79). -/
def typeBulkHeader : Byte := 3

/-- PacketType Response, reserved: neither built nor accepted (R79, R85). -/
def typeResponse : Byte := 4

/-- `frame(t, p, c)` of R78. -/
def frame (t : Byte) (p : List Byte) (c : Word) : List Byte :=
  [Config.sof, t] ++ le16 (BitVec.ofNat 16 p.length) ++ p ++ le32 c ++ [Config.termCr, Config.termLf]

/-- The payload lengths each type allows (R81 to R84, the table of R175). -/
def legalLength (t : Byte) (l : Nat) : Bool :=
  if t = typeCommand then decide (l = 1)
  else if t = typeData then decide (1 ≤ l) && decide (l ≤ Config.maxDataPayload)
  else if t = typeHeader then decide (l = 16)
  else if t = typeBulkHeader then decide (l = 4)
  else false

/-- The CRC field of a frame of type `t` with payload `p`: the window of the type, over the payload alone (R80, R178).
For a type that is none of the four the value is free (log entry 7). -/
def typeCrc (t : Byte) (p : List Byte) : Word :=
  if t = typeCommand then crcCommand (byteAt p 0)
  else if t = typeData then crcFixedDatapack p
  else if t = typeHeader ∨ t = typeBulkHeader then crcFixed16 p
  else Config.openTypeCrc t p

/-- The HeaderPayload of R82: image_size, image_crc, and the two reserved words, which are 0. -/
def headerPayload (imageSize imageCrc : Word) : List Byte := le32 imageSize ++ le32 imageCrc ++ zeros 8

/-- The BulkHeaderPayload of R83. -/
def bulkHeaderPayload (bulkCrc : Word) : List Byte := le32 bulkCrc

/-- The source's `encode_command(cmd)` (R142). -/
def encodeCommand (b : Byte) : List Byte := frame typeCommand [b] (crcCommand b)

/-- The source's `encode_data(chunk)` (R143). -/
def encodeData (chunk : List Byte) : List Byte := frame typeData chunk (crcFixedDatapack chunk)

/-- The source's `encode_header(image)` (R144): it computes the size and the CRC of the image itself. -/
def encodeHeader (image : List Byte) : List Byte :=
  let p := headerPayload (BitVec.ofNat 32 image.length) (crcFullImage image)
  frame typeHeader p (crcFixed16 p)

/-- The source's `encode_bulk_header(page_bytes)` (R145). -/
def encodeBulkHeader (page : List Byte) : List Byte :=
  let p := bulkHeaderPayload (crcFullImage page)
  frame typeBulkHeader p (crcFixed16 p)

end Sys2Proof.Machine
end

