-- ==== Sys2Proof/Machine/Decoder.lean ====
section
/-! DEFINITION. The two decoder commands and the transitions of DEC_BYTE (42_decode.md). They write the decoder's
state and OPERR only. -/

namespace Sys2Proof.Machine

/-- The decoder's recorded fields and DBUF are cleared (R170, R172). -/
def clearDecoder (s : State) : State :=
  { s with
    dtype := 0
    dlen := 0
    dcrc := 0
    dcalc := 0
    dcnt := 0
    mem := s.mem.store dbufBase (zeros Config.dbufSize) }

/-- The error action `derr(code)`: the byte is consumed and the recorded fields stay (R181). -/
def derr (code : DEvent) (s : State) : State := { s with devent := code, dstate := .hunt }

/-- State HUNT (R172). -/
def decHunt (b : Byte) (s : State) : State :=
  if b = Config.sof then { clearDecoder s with devent := .noEvent, dstate := .typ } else s

/-- State TYPE (R173). -/
def decType (b : Byte) (s : State) : State :=
  if b.toNat ≤ 3 then { s with dtype := b, dstate := .lenLo }
  else if b = typeResponse then derr .reservedType { s with dtype := b }
  else derr .badType { s with dtype := b }

/-- State LEN_LO (R174). -/
def decLenLo (b : Byte) (s : State) : State := { s with dlen := b.zeroExtend 16, dstate := .lenHi }

/-- DLEN after the second length byte (R175). -/
def dlenWithHi (b : Byte) (s : State) : BitVec 16 := s.dlen ||| (b.zeroExtend 16 <<< 8)

/-- State LEN_HI (R175). -/
def decLenHi (b : Byte) (s : State) : State :=
  if legalLength s.dtype (dlenWithHi b s).toNat then { s with dlen := dlenWithHi b s, dstate := .payload }
  else derr .badLength { s with dlen := dlenWithHi b s }

/-- DBUF with `b` at index `i`. The buffer has no index above 255, so a write there stores nothing (log entry 8). -/
def putDbuf (m : Memory) (i : Nat) (b : Byte) : Memory :=
  if i < Config.dbufSize then m.store (dbufBase + i) [b] else m

/-- State PAYLOAD (R176). -/
def decPayload (b : Byte) (s : State) : State :=
  { s with
    mem := putDbuf s.mem s.dcnt.toNat b
    dcnt := s.dcnt + 1
    dstate := if (s.dcnt + 1).toNat = s.dlen.toNat then .crc0 else .payload }

/-- DCRC with byte `k` of the CRC field added (R177, R178). -/
def dcrcWith (k : Nat) (b : Byte) (s : State) : Word := s.dcrc ||| (b.zeroExtend 32 <<< (8 * k))

/-- States CRC0 to CRC2 (R177): byte `k` of the field, then state `next`. -/
def decCrcByte (k : Nat) (next : DState) (b : Byte) (s : State) : State :=
  { s with dcrc := dcrcWith k b s, dstate := next }

/-- The CRC the decoder computes over the received payload (R178). -/
def computedCrc (s : State) : Word := typeCrc s.dtype (dbufBytes s s.dlen.toNat)

/-- State CRC3 (R178). -/
def decCrc3 (b : Byte) (s : State) : State :=
  if computedCrc s = dcrcWith 3 b s then
    { s with dcrc := dcrcWith 3 b s, dcalc := computedCrc s, dstate := .cr }
  else derr .badCrc { s with dcrc := dcrcWith 3 b s, dcalc := computedCrc s }

/-- State CR (R179). -/
def decCr (b : Byte) (s : State) : State :=
  if b = Config.termCr then { s with dstate := .lf } else derr .badCr s

/-- State LF (R180). -/
def decLf (b : Byte) (s : State) : State :=
  if b = Config.termLf then { s with devent := .frameOk, dstate := .hunt } else derr .badLf s

/-- The transition of the current DSTATE for the byte `b` (R171). -/
def decTransition (b : Byte) (s : State) : State :=
  match s.dstate with
  | .hunt => decHunt b s
  | .typ => decType b s
  | .lenLo => decLenLo b s
  | .lenHi => decLenHi b s
  | .payload => decPayload b s
  | .crc0 => decCrcByte 0 .crc1 b s
  | .crc1 => decCrcByte 1 .crc2 b s
  | .crc2 => decCrcByte 2 .crc3 b s
  | .crc3 => decCrc3 b s
  | .cr => decCr b s
  | .lf => decLf b s

/-- DEC_RESET (R170). -/
def execDecReset (s : State) : Outcome :=
  succeed { clearDecoder s with devent := .noEvent, dstate := .hunt }

/-- DEC_BYTE (R171): every byte is accepted in every state. -/
def execDecByte (b : Byte) (s : State) : Outcome := succeed (decTransition b s)

end Sys2Proof.Machine
end

