-- ==== Sys2Proof/Machine/Encode.lean ====
section
/-! DEFINITION. The four encode commands (41_encode.md). They write OBUF, OLEN, FCRC and OPERR only. -/

namespace Sys2Proof.Machine

/-- The effects of a successful encode command, but for OPERR (R141): the frame and zeros after it fill OBUF. -/
def putFrame (f : List Byte) (c : Word) (s : State) : State :=
  { s with
    mem := s.mem.store obufBase (f ++ zeros (Config.obufSize - f.length))
    olen := BitVec.ofNat 32 f.length
    fcrc := c }

/-- Build the frame of type `t` with payload `p` and CRC field `c` (R140, R141). -/
def buildFrame (t : Byte) (p : List Byte) (c : Word) (s : State) : Outcome :=
  succeed (putFrame (frame t p c) c s)

/-- ENC_COMMAND (R142): only Start (0) and End (1) are built. -/
def execEncCommand (b : Byte) (s : State) : Outcome :=
  if 1 < b.toNat then reject .errArg s else buildFrame typeCommand [b] (crcCommand b) s

/-- ENC_DATA (R143). -/
def execEncData (n : Nat) (s : State) : Outcome :=
  withCount 1 n s (buildFrame typeData (ibufBytes s n) (crcFixedDatapack (ibufBytes s n)) s)

/-- ENC_HEADER (R144): ARG0 is the image size and ARG1 the image CRC. -/
def execEncHeader (s : State) : Outcome :=
  buildFrame typeHeader (headerPayload (arg0Operand s) (arg1Operand s))
    (crcFixed16 (headerPayload (arg0Operand s) (arg1Operand s))) s

/-- ENC_BULK_HEADER (R145): ARG0 is the page CRC. -/
def execEncBulkHeader (s : State) : Outcome :=
  buildFrame typeBulkHeader (bulkHeaderPayload (arg0Operand s))
    (crcFixed16 (bulkHeaderPayload (arg0Operand s))) s

end Sys2Proof.Machine
end

