-- ==== Sys2Proof/Machine/Dispatch.lean ====
section
/-! DEFINITION. The dispatch: one arm per command (30_encoding.md R73). -/

namespace Sys2Proof.Machine

def exec (i : Instr) (s : State) : Host.Outcome State Fault Refusal :=
  match i with
  | .crcInit => Sys2Proof.Machine.execCrcInit s
  | .crcByte b => Sys2Proof.Machine.execCrcByte b s
  | .crcWord => Sys2Proof.Machine.execCrcWord s
  | .crcUpdate n => Sys2Proof.Machine.execCrcUpdate n s
  | .crcFull n => Sys2Proof.Machine.execCrcFull n s
  | .crcFixed16 n => Sys2Proof.Machine.execCrcFixed16 n s
  | .crcDatapack n => Sys2Proof.Machine.execCrcDatapack n s
  | .crcCommand b => Sys2Proof.Machine.execCrcCommand b s
  | .encCommand b => Sys2Proof.Machine.execEncCommand b s
  | .encData n => Sys2Proof.Machine.execEncData n s
  | .encHeader => Sys2Proof.Machine.execEncHeader s
  | .encBulkHeader => Sys2Proof.Machine.execEncBulkHeader s
  | .decReset => Sys2Proof.Machine.execDecReset s
  | .decByte b => Sys2Proof.Machine.execDecByte b s

end Sys2Proof.Machine
end

