-- ==== Sys2Proof/Machine/Step.lean ====
section
/-! DEFINITION. One step of the machine: the block takes the next host event (20_memory.md R59). A write to CMD
stores the word and runs the command to completion inside it (R58, 30_encoding.md R71). -/

namespace Sys2Proof.Machine

/-- `Issue(w)` of R71. CMD holds `w` already (R22). -/
def issue (w : Word) (s : State) : Host.Outcome State Fault Refusal :=
  match decodeWord w with
  | .ok i => exec i s
  | .error _ => illegalWord s

/-- One host event taken from the state `s`, with the events `rest` still pending after it. -/
def takeEvent (e : HostEvent) (rest : List HostEvent) (s : State) : Host.Outcome State Fault Refusal :=
  match e with
  | .reset => .next (resetEvent rest)
  | .read off n =>
    match memRead s off n with
    | .ok v => .next (endEvent s rest (some v))
    | .error k => raiseBusError k
  | .write off n v =>
    match memWrite (endEvent s rest none) off n v with
    | .ok (.stored t) => .next t
    | .ok (.issues w t) => issue w t
    | .error k => raiseBusError k

/-- One step: the next host event. With none pending the block waits and nothing changes (R13, R242). -/
def step (s : State) : Host.Outcome State Fault Refusal :=
  match s.pending with
  | [] => .next s
  | e :: rest => takeEvent e rest s

/-- `s` with the CMD write of the table word as its next host event: that write is the block's instruction fetch
(R22, R62; log entry 1). -/
def State.withFetchWord (s : State) (nbits w : Nat) : State :=
  { s with pending := commandWrite (tableWord nbits w) :: s.pending }

end Sys2Proof.Machine
end

