-- ==== Sys2Proof/Machine/HostProgram.lean ====
section
/-! DEFINITION. What a host writes to drive the block: a command line as a bus write (30_encoding.md R76) and the
pseudo-instructions with their expansions (R77). -/

namespace Sys2Proof.Machine

/-- A command line: the CMD write of its word (R76). -/
def commandLine (i : Instr) : HostEvent := commandWrite (encode i)

/-- `SET_ARG0 v` (R77). -/
def setArg0 (v : Word) : HostEvent := .write 0x008 4 v

/-- `SET_ARG1 v` (R77). -/
def setArg1 (v : Word) : HostEvent := .write 0x00C 4 v

/-- 8-bit writes of the bytes `bs` at offsets `off`, `off + 1`, …, in order. -/
def byteWrites : Nat → List Byte → List HostEvent
  | _, [] => []
  | off, b :: bs => .write off 1 (b.zeroExtend 32) :: byteWrites (off + 1) bs

/-- `LOAD_IBUF s` (R77), for at most 256 bytes. -/
def loadIbuf (s : List Byte) : List HostEvent := byteWrites ibufBase s

/-- 32-bit writes of aligned groups of four bytes, packed by `le32`, then 8-bit writes of the bytes left over. -/
def wordWrites : Nat → List Byte → List HostEvent
  | off, b0 :: b1 :: b2 :: b3 :: bs => .write off 4 (ofLe32 b0 b1 b2 b3) :: wordWrites (off + 4) bs
  | off, bs => byteWrites off bs

/-- `LOAD_IBUF s` by words, the other form R77 allows. -/
def loadIbufByWords (s : List Byte) : List HostEvent := wordWrites ibufBase s

/-- `FEED s` (R77). -/
def feed (s : List Byte) : List HostEvent := s.map fun b => commandLine (.decByte b)

/-- The consecutive pieces of 256 bytes, the last one shorter or left out (R77); `fuel` bounds their number. -/
def piecesOf : Nat → List Byte → List (List Byte)
  | 0, _ => []
  | _ + 1, [] => []
  | fuel + 1, s => s.take 256 :: piecesOf fuel (s.drop 256)

/-- The accumulation of a list of pieces: `LOAD_IBUF p` and `CRC_UPDATE n=len(p)` for each (R77, 40_crc.md R118). -/
def crcPieces : List (List Byte) → List HostEvent
  | [] => []
  | p :: ps => loadIbuf p ++ commandLine (.crcUpdate p.length) :: crcPieces ps

/-- `CRC_IMAGE s` (R77). -/
def crcImage (s : List Byte) : List HostEvent :=
  commandLine .crcInit :: crcPieces (piecesOf s.length s)

/-- 8-bit reads of `n` bytes from offset `off`, in order. -/
def byteReads : Nat → Nat → List HostEvent
  | _, 0 => []
  | off, n + 1 => .read off 1 :: byteReads (off + 1) n

/-- `READ_FRAME` (R77) of a frame of `olen` bytes, the value its first read returns. -/
def readFrame (olen : Nat) : List HostEvent := .read 0x018 4 :: byteReads obufBase olen

end Sys2Proof.Machine
end

