-- ==== Sys2Proof/Safety.lean ====
section
/-! DEFINITION. Runs of several host events, and the states a run can reach: the invariant that every step keeps.
It says what the encoder's and the decoder's registers and buffers hold together (41_encode.md R141, R148, R149,
42_decode.md R172 to R182, 10_state.md R23 to R33). -/

namespace Sys2Proof.Machine

/-- `k` steps, stopping at the first BusError. -/
def runSteps : Nat → State → Outcome
  | 0, s => .next s
  | k + 1, s =>
    match step s with
    | .next t => runSteps k t
    | .fault r => .fault r
    | .refused r => .refused r

/-- The host performs the events `es`, one after the other, on the block in state `s`. -/
def hostRuns (es : List HostEvent) (s : State) : Outcome := runSteps es.length { s with pending := es }

/-- The families of the opcode map (30_encoding.md R73). -/
inductive Family where
  | crc
  | enc
  | dec
  deriving DecidableEq, Repr

/-- The family of a command (R73). -/
def familyOf : Instr → Family
  | .crcInit => .crc
  | .crcByte _ => .crc
  | .crcWord => .crc
  | .crcUpdate _ => .crc
  | .crcFull _ => .crc
  | .crcFixed16 _ => .crc
  | .crcDatapack _ => .crc
  | .crcCommand _ => .crc
  | .encCommand _ => .enc
  | .encData _ => .enc
  | .encHeader => .enc
  | .encBulkHeader => .enc
  | .decReset => .dec
  | .decByte _ => .dec

/-- A buffer offset: IBUF, OBUF without its pad, or DBUF (20_memory.md R51). -/
def inBuffers (a : Nat) : Bool :=
  (decide (0x100 ≤ a) && decide (a < 0x200)) || (decide (0x200 ≤ a) && decide (a < 0x30A))
    || (decide (0x400 ≤ a) && decide (a < 0x500))

/-- The buffer memory is in canonical form and holds nothing outside the buffers. -/
def MemoryHolds (s : State) : Prop :=
  s.mem.wf = true ∧ ∀ a, inBuffers a = false → s.mem.read a = 0

/-- OBUF, OLEN and FCRC are as after reset, or hold one whole frame of a legal type and length (R141, R148, R149). -/
def EncoderHolds (s : State) : Prop :=
  (s.olen = 0 ∧ s.fcrc = 0 ∧ obufBytes s 266 = zeros 266) ∨
  ∃ t p, legalLength t p.length = true ∧ s.fcrc = typeCrc t p ∧ s.olen = BitVec.ofNat 32 (p.length + 10) ∧
    obufBytes s 266 = frame t p s.fcrc ++ zeros (256 - p.length)

/-- DBUF is zero from index `k` on (R32, R172). -/
def DbufZeroFrom (s : State) (k : Nat) : Prop := ∀ i, k ≤ i → i < 256 → s.mem.read (dbufBase + i) = 0

/-- DCRC, DCALC and DCNT are as the SOF left them (R172). -/
def NothingReceived (s : State) : Prop := s.dcrc = 0 ∧ s.dcalc = 0 ∧ s.dcnt = 0

/-- The whole payload of a legal frame is in DBUF (R175, R176). -/
def PayloadReceived (s : State) : Prop :=
  legalLength s.dtype s.dlen.toNat = true ∧ s.dcnt.toNat = s.dlen.toNat

/-- The CRC field was received and equals the CRC of the payload with the window of the type (R178). -/
def CrcAgrees (s : State) : Prop := PayloadReceived s ∧ s.dcalc = computedCrc s ∧ s.dcrc = s.dcalc

/-- What the recorded fields hold in HUNT, by the event that led there (R170, R181, R182). -/
def huntRecord (s : State) : DEvent → Prop
  | .noEvent => s.dtype = 0 ∧ s.dlen = 0 ∧ NothingReceived s
  | .frameOk => CrcAgrees s
  | .badType => 5 ≤ s.dtype.toNat ∧ s.dlen = 0 ∧ NothingReceived s
  | .reservedType => s.dtype = 4 ∧ s.dlen = 0 ∧ NothingReceived s
  | .badLength => s.dtype.toNat ≤ 3 ∧ legalLength s.dtype s.dlen.toNat = false ∧ NothingReceived s
  | .badCrc => PayloadReceived s ∧ s.dcalc = computedCrc s ∧ s.dcrc ≠ s.dcalc
  | .badCr => CrcAgrees s
  | .badLf => CrcAgrees s

/-- What the recorded fields hold in each decoder state (R172 to R181). -/
def stateRecord (s : State) : DState → Prop
  | .hunt => huntRecord s s.devent
  | .typ => s.dtype = 0 ∧ s.dlen = 0 ∧ NothingReceived s
  | .lenLo => s.dtype.toNat ≤ 3 ∧ s.dlen = 0 ∧ NothingReceived s
  | .lenHi => s.dtype.toNat ≤ 3 ∧ s.dlen.toNat < 256 ∧ NothingReceived s
  | .payload => legalLength s.dtype s.dlen.toNat = true ∧ s.dcnt.toNat < s.dlen.toNat ∧ s.dcrc = 0 ∧ s.dcalc = 0
  | .crc0 => PayloadReceived s ∧ s.dcrc = 0 ∧ s.dcalc = 0
  | .crc1 => PayloadReceived s ∧ s.dcrc.toNat < 2 ^ 8 ∧ s.dcalc = 0
  | .crc2 => PayloadReceived s ∧ s.dcrc.toNat < 2 ^ 16 ∧ s.dcalc = 0
  | .crc3 => PayloadReceived s ∧ s.dcrc.toNat < 2 ^ 24 ∧ s.dcalc = 0
  | .cr => CrcAgrees s
  | .lf => CrcAgrees s

/-- The decoder's fields fit its state: outside HUNT no event stands (R172), DCNT counts at most 256 bytes (R33), and
DBUF is zero beyond the bytes received (R182). -/
def DecoderHolds (s : State) : Prop :=
  (s.dstate ≠ .hunt → s.devent = .noEvent) ∧ s.dcnt.toNat ≤ 256 ∧ DbufZeroFrom s s.dcnt.toNat ∧
    stateRecord s s.dstate

/-- The invariant of the block. -/
def BlockInv (s : State) : Prop := MemoryHolds s ∧ EncoderHolds s ∧ DecoderHolds s

end Sys2Proof.Machine
end

