-- ==== Sys2Proof/Certificates/Slice0/Obligations.lean ====
section
/-! DEFINITION. The statements for the provers, from the numbered rules of spec/. -/

open Sys2Proof Sys2Proof.Machine

/-! ### Encoding -/

/-- Decoding an encoded well-formed command gives it back, as a word and as the first four bytes of a byte list
(30_encoding.md R70, R72, R73). -/
def Obligations.DecodeOfEncodedCommand : Prop :=
  ∀ (i : Instr) (rest : List Byte), WellFormed i →
    decodeWord (encode i) = .ok i ∧ decodeBytes (encodeBytes i ++ rest) = .ok (i, rest)

/-- The opcode map, row by row: a word whose OP and RSV bits match a row decodes to the row's command with B = w[15:8]
and N = w[24:16], whatever the fields it does not use hold; and no word decodes to a command of another row
(30_encoding.md R72, R73). -/
def Obligations.OpcodeMapSelectsByMask : Prop :=
  ∀ w : Word,
    (w &&& 0xFE0000FF = 0x01 → decodeWord w = .ok .crcInit) ∧
    (w &&& 0xFE0000FF = 0x02 → decodeWord w = .ok (.crcByte (w.extractLsb' 8 8))) ∧
    (w &&& 0xFE0000FF = 0x03 → decodeWord w = .ok .crcWord) ∧
    (w &&& 0xFE0000FF = 0x04 → decodeWord w = .ok (.crcUpdate (w.extractLsb' 16 9).toNat)) ∧
    (w &&& 0xFE0000FF = 0x05 → decodeWord w = .ok (.crcFull (w.extractLsb' 16 9).toNat)) ∧
    (w &&& 0xFE0000FF = 0x06 → decodeWord w = .ok (.crcFixed16 (w.extractLsb' 16 9).toNat)) ∧
    (w &&& 0xFE0000FF = 0x07 → decodeWord w = .ok (.crcDatapack (w.extractLsb' 16 9).toNat)) ∧
    (w &&& 0xFE0000FF = 0x08 → decodeWord w = .ok (.crcCommand (w.extractLsb' 8 8))) ∧
    (w &&& 0xFE0000FF = 0x10 → decodeWord w = .ok (.encCommand (w.extractLsb' 8 8))) ∧
    (w &&& 0xFE0000FF = 0x11 → decodeWord w = .ok (.encData (w.extractLsb' 16 9).toNat)) ∧
    (w &&& 0xFE0000FF = 0x12 → decodeWord w = .ok .encHeader) ∧
    (w &&& 0xFE0000FF = 0x13 → decodeWord w = .ok .encBulkHeader) ∧
    (w &&& 0xFE0000FF = 0x20 → decodeWord w = .ok .decReset) ∧
    (w &&& 0xFE0000FF = 0x21 → decodeWord w = .ok (.decByte (w.extractLsb' 8 8))) ∧
    ∀ i, decodeWord w = .ok i → w &&& 0xFE0000FF = (opcodeOf i).zeroExtend 32

/-- Words written out from the fields of R70 decode to their commands (95_test_vectors.md sections 2.3, 2.5, 2.7). -/
def Obligations.ListedWordsDecode : Prop :=
  decodeWord 0x00003102 = .ok (.crcByte 0x31) ∧ decodeWord 0x00090004 = .ok (.crcUpdate 9) ∧
    decodeWord 0x01FFFF01 = .ok .crcInit ∧ decodeWord 0x01000011 = .ok (.encData 256) ∧
    decodeWord 0x00000110 = .ok (.encCommand 1) ∧ decodeWord 0x00000A21 = .ok (.decByte 0x0A)

/-! ### Steps and bus accesses -/

/-- A write of a word that decodes to a command stores it in CMD and runs that command in the same step
(10_state.md R22, 20_memory.md R58, 30_encoding.md R71). -/
def Obligations.StepRunsDecodedCommand : Prop :=
  ∀ (w : Word) (i : Instr) (s : State) (rest : List HostEvent),
    s.pending = .write 0x000 4 w :: rest → decodeWord w = .ok i →
      step s = exec i { s with cmd := w, pending := rest, readData := none }

/-- An illegal word sets OPERR to ERR_OPCODE, is held in CMD, and changes nothing else (30_encoding.md R74). -/
def Obligations.IllegalWordSetsErrOpcode : Prop :=
  ∀ (w : Word) (s : State) (rest : List HostEvent),
    s.pending = .write 0x000 4 w :: rest →
    (w.extractLsb' 25 7 ≠ 0 ∨ (w.extractLsb' 0 8).toNat = 0x00 ∨
      (0x09 ≤ (w.extractLsb' 0 8).toNat ∧ (w.extractLsb' 0 8).toNat ≤ 0x0F) ∨
      (0x14 ≤ (w.extractLsb' 0 8).toNat ∧ (w.extractLsb' 0 8).toNat ≤ 0x1F) ∨
      0x22 ≤ (w.extractLsb' 0 8).toNat) →
      step s = .next { s with cmd := w, operr := .errOpcode, pending := rest, readData := none }

/-- With no host event pending the block waits: a step changes nothing. That the wait is a step is the model's choice
(log entry 1; 00_scope.md R13, 70_reset_and_hazards.md R242). -/
def Obligations.NoPendingEventChangesNothing : Prop :=
  ∀ s : State, s.pending = [] → step s = .next s

/-- The mapped offsets of 20_memory.md R51. -/
def Sys2Proof.Machine.specMapped (off : Nat) : Prop :=
  off < 0x02C ∨ (0x100 ≤ off ∧ off < 0x200) ∨ (0x200 ≤ off ∧ off < 0x30C) ∨ (0x400 ≤ off ∧ off < 0x500)

/-- The widths allowed at a mapped offset (R51): 32 bits for registers, 8 or 32 for buffers. -/
def Sys2Proof.Machine.specWidth (off n : Nat) : Prop := n = 4 ∨ (n = 1 ∧ 0x100 ≤ off)

/-- The offsets the host may write (R51): CMD, ARG0, ARG1 and IBUF. -/
def Sys2Proof.Machine.specWritable (off : Nat) : Prop :=
  off < 0x004 ∨ (0x008 ≤ off ∧ off < 0x010) ∨ (0x100 ≤ off ∧ off < 0x200)

/-- The checks of every host access, in their order, and that a read which passes them completes
(20_memory.md R52, 60_exceptions.md R218). -/
def Obligations.HostAccessChecksInOrder : Prop :=
  ∀ (s : State) (off n : Nat) (v : Word) (rest : List HostEvent),
    (s.pending = .read off n :: rest ∨ s.pending = .write off n v :: rest →
      (¬ specMapped off → step s = .fault (.busError .unmapped)) ∧
      (specMapped off → ¬ specWidth off n → step s = .fault (.busError .width)) ∧
      (specMapped off → specWidth off n → n = 4 → off % 4 ≠ 0 → step s = .fault (.busError .align))) ∧
    (s.pending = .write off n v :: rest →
      (specMapped off → specWidth off n → (n = 4 → off % 4 = 0) → ¬ specWritable off →
        step s = .fault (.busError .readonly)) ∧
      (specMapped off → specWidth off n → (n = 4 → off % 4 = 0) → specWritable off → ∃ t, step s = .next t)) ∧
    (s.pending = .read off n :: rest → specMapped off → specWidth off n → (n = 4 → off % 4 = 0) →
      ∃ x, step s = .next { s with pending := rest, readData := some x })

/-- A read of each register returns its value and changes nothing in the block (20_memory.md R51, R55). -/
def Obligations.RegisterReadReturnsValue : Prop :=
  ∀ (s : State) (rest : List HostEvent),
    (s.pending = .read 0x000 4 :: rest → step s = .next { s with pending := rest, readData := some s.cmd }) ∧
    (s.pending = .read 0x004 4 :: rest → ∃ x : Word,
      step s = .next { s with pending := rest, readData := some x } ∧ x.extractLsb' 0 4 = operrCode s.operr ∧
      x.extractLsb' 4 4 = deventCode s.devent ∧ x.extractLsb' 8 4 = dstateCode s.dstate ∧ x.extractLsb' 12 20 = 0) ∧
    (s.pending = .read 0x008 4 :: rest → step s = .next { s with pending := rest, readData := some s.arg0 }) ∧
    (s.pending = .read 0x00C 4 :: rest → step s = .next { s with pending := rest, readData := some s.arg1 }) ∧
    (s.pending = .read 0x010 4 :: rest → step s = .next { s with pending := rest, readData := some s.acc }) ∧
    (s.pending = .read 0x014 4 :: rest → step s = .next { s with pending := rest, readData := some s.fcrc }) ∧
    (s.pending = .read 0x018 4 :: rest → step s = .next { s with pending := rest, readData := some s.olen }) ∧
    (s.pending = .read 0x01C 4 :: rest →
      step s = .next { s with pending := rest, readData := some (s.dtype.zeroExtend 32) }) ∧
    (s.pending = .read 0x020 4 :: rest →
      step s = .next { s with pending := rest, readData := some (s.dlen.zeroExtend 32) }) ∧
    (s.pending = .read 0x024 4 :: rest → step s = .next { s with pending := rest, readData := some s.dcrc }) ∧
    (s.pending = .read 0x028 4 :: rest → step s = .next { s with pending := rest, readData := some s.dcalc })

/-- The STATUS word holds the codes of its three fields, and 0 in bits 31:12 (10_state.md R23, R34, 60_exceptions.md
R211, R214). -/
def Obligations.StatusFieldsHoldTheirCodes : Prop :=
  ∀ s : State, (statusWord s).extractLsb' 12 20 = 0 ∧
    ((statusWord s).extractLsb' 0 4).toNat = (match s.operr with
      | .ok => 0 | .errOpcode => 1 | .errLength => 2 | .errArg => 3) ∧
    ((statusWord s).extractLsb' 4 4).toNat = (match s.devent with
      | .noEvent => 0 | .frameOk => 1 | .badType => 2 | .reservedType => 3 | .badLength => 4 | .badCrc => 5
      | .badCr => 6 | .badLf => 7) ∧
    ((statusWord s).extractLsb' 8 4).toNat = (match s.dstate with
      | .hunt => 0 | .typ => 1 | .lenLo => 2 | .lenHi => 3 | .payload => 4 | .crc0 => 5 | .crc1 => 6 | .crc2 => 7
      | .crc3 => 8 | .cr => 9 | .lf => 10)

/-- The byte a host sees at a buffer offset: the pad bytes after OBUF are 0 (20_memory.md R51, R55). -/
def Sys2Proof.Machine.specBufferByte (s : State) (off : Nat) : Byte :=
  if 0x30A ≤ off ∧ off < 0x30C then 0 else s.mem.read off

/-- A buffer read returns one byte in bits 7:0, or four bytes with the lowest offset in bits 7:0, and changes nothing
in the block (20_memory.md R53, R55). -/
def Obligations.BufferReadIsLittleEndian : Prop :=
  ∀ (s : State) (off : Nat) (rest : List HostEvent), specMapped off → 0x100 ≤ off →
    (s.pending = .read off 1 :: rest →
      step s = .next { s with pending := rest, readData := some ((specBufferByte s off).zeroExtend 32) }) ∧
    (s.pending = .read off 4 :: rest → off % 4 = 0 → ∃ x : Word,
      step s = .next { s with pending := rest, readData := some x } ∧
        ∀ j, j < 4 → x.extractLsb' (8 * j) 8 = specBufferByte s (off + j))

/-- A write to ARG0 or ARG1 stores all 32 bits and has no other effect (10_state.md R21, 20_memory.md R55). -/
def Obligations.OperandRegisterWriteStoresValue : Prop :=
  ∀ (s : State) (v : Word) (rest : List HostEvent),
    (s.pending = .write 0x008 4 v :: rest →
      step s = .next { s with arg0 := v, pending := rest, readData := none }) ∧
    (s.pending = .write 0x00C 4 v :: rest →
      step s = .next { s with arg1 := v, pending := rest, readData := none })

/-- An 8-bit write to IBUF changes exactly one byte and a 32-bit write exactly four, the low byte at the lowest offset;
nothing else changes (20_memory.md R53, R55). That the byte of an 8-bit write is bits 7:0 of the event's 32-bit value is
the model's reading, not a rule of the spec (log entry 5). -/
def Obligations.IbufWriteChangesItsBytesOnly : Prop :=
  ∀ (s : State) (off : Nat) (v : Word) (rest : List HostEvent), 0x100 ≤ off → off < 0x200 →
    (s.pending = .write off 1 v :: rest → ∃ m : Memory,
      step s = .next { s with mem := m, pending := rest, readData := none } ∧
        ∀ a, m.read a = if a = off then v.extractLsb' 0 8 else s.mem.read a) ∧
    (s.pending = .write off 4 v :: rest → off % 4 = 0 → ∃ m : Memory,
      step s = .next { s with mem := m, pending := rest, readData := none } ∧
        ∀ a, m.read a = if off ≤ a ∧ a < off + 4 then v.extractLsb' (8 * (a - off)) 8 else s.mem.read a)

/-- The reset event gives every state element its reset value (70_reset_and_hazards.md R241); the host's later events
stay pending. That it lands between two accesses is the model's choice (log entry 3). -/
def Obligations.ResetEventGivesResetValues : Prop :=
  ∀ (s : State) (rest : List HostEvent), s.pending = .reset :: rest → ∃ t,
    step s = .next t ∧ t.acc = 0xFFFFFFFF ∧ t.arg0 = 0 ∧ t.arg1 = 0 ∧ t.cmd = 0 ∧ statusWord t = 0 ∧
      t.operr = .ok ∧ t.devent = .noEvent ∧ t.dstate = .hunt ∧ t.fcrc = 0 ∧ t.olen = 0 ∧ t.dtype = 0 ∧ t.dlen = 0 ∧
      t.dcrc = 0 ∧ t.dcalc = 0 ∧ t.dcnt = 0 ∧ (∀ a, t.mem.read a = 0) ∧ t.pending = rest

/-! ### The CRC functions -/

/-- The byte step with the printed table is eight bits of the MSB-first division by the polynomial, for every CRC value
and byte (00_scope.md R2, 40_crc.md R100, R101; the construction is marked general knowledge there). -/
def Obligations.TableStepIsBitSerialDivision : Prop :=
  ∀ (c : Word) (b : Byte), crcStep c b = crcBits8 (c ^^^ (b.zeroExtend 32 <<< 24))

/-- The word step consumes the bytes of a big-endian word in their sequence order (40_crc.md R103, which the spec
marks as derived). -/
def Obligations.WordStepConsumesBytesInOrder : Prop :=
  ∀ (c : Word) (b0 b1 b2 b3 : Byte),
    crcWord c (be32 b0 b1 b2 b3) = crcStep (crcStep (crcStep (crcStep c b0) b1) b2) b3

/-- Zero padding up to the window changes no fixed-window CRC (40_crc.md R119, which the spec marks as derived). -/
def Obligations.FixedWindowIgnoresZeroPadding : Prop :=
  (∀ s : List Byte, s.length ≤ 16 → crcFixed16 s = crcFixed16 (s ++ zeros (16 - s.length))) ∧
    ∀ s : List Byte, s.length ≤ 256 → crcFixedDatapack s = crcFixedDatapack (s ++ zeros (256 - s.length))

/-- A command byte is hashed as a 1-byte image, and not as the 16-byte window would hash it (40_crc.md R120, which
the spec marks as derived). -/
def Obligations.CommandCrcIsOneByteImageCrc : Prop :=
  ∀ b : Byte, crcCommand b = crcFullImage [b] ∧ crcCommand b = crcRaw [b, 0, 0, 0] 0xFFFFFFFF ∧
    crcCommand b ≠ crcFixed16 [b]

/-- The values R121, R122 and R123 of 40_crc.md give: the empty image, the check value of the unpadded core and the
padded image CRC of the same nine bytes, and the three regression constants. The spec marks R122 and R123 as derived. -/
def Obligations.KnownCrcValues : Prop :=
  crcFullImage [] = 0xFFFFFFFF ∧
    crcRaw [0x31, 0x32, 0x33, 0x34, 0x35, 0x36, 0x37, 0x38, 0x39] 0xFFFFFFFF = 0x0376E6E7 ∧
    crcFullImage [0x31, 0x32, 0x33, 0x34, 0x35, 0x36, 0x37, 0x38, 0x39] = 0xAE24E09D ∧
    crcFixedDatapack (zeros 256) = 0xE55E964F ∧ crcFixed16 (zeros 16) = 0x552D22C8 ∧ crcCommand 0 = 0xC704DD7B

/-! ### CRC commands: results, with everything they leave alone -/

/-- CRC_INIT (40_crc.md R110): the word, the result, and that a second one changes nothing more. -/
def Obligations.CrcInitResetsAcc : Prop :=
  (∀ w : Word, w &&& 0xFE0000FF = 0x01 → decodeWord w = .ok .crcInit) ∧
    ∀ s : State, exec .crcInit s = .next { s with acc := 0xFFFFFFFF, operr := .ok } ∧
      ∀ t, exec .crcInit s = .next t → exec .crcInit t = .next t

/-- CRC_BYTE (40_crc.md R111): one byte step on ACC; a sequence of them from CRC_INIT computes the unpadded core. -/
def Obligations.CrcByteStepsAcc : Prop :=
  (∀ w : Word, w &&& 0xFE0000FF = 0x02 → decodeWord w = .ok (.crcByte (w.extractLsb' 8 8))) ∧
    (∀ (b : Byte) (s : State), exec (.crcByte b) s = .next { s with acc := crcStep s.acc b, operr := .ok }) ∧
    crcStep 0xFFFFFFFF 0x31 = 0x9EFBCF93 ∧
    ∀ (bs : List Byte) (s : State), ∃ t,
      hostRuns (commandLine .crcInit :: bs.map fun b => commandLine (.crcByte b)) s = .next t ∧
        t.acc = crcRaw bs 0xFFFFFFFF ∧ (bs.length % 4 = 0 → t.acc = crcFullImage bs)

/-- CRC_WORD (40_crc.md R112): one word step on ACC with ARG0. -/
def Obligations.CrcWordStepsAcc : Prop :=
  (∀ w : Word, w &&& 0xFE0000FF = 0x03 → decodeWord w = .ok .crcWord) ∧
    (∀ s : State, exec .crcWord s = .next { s with acc := crcWord s.acc s.arg0, operr := .ok }) ∧
    crcWord 0xFFFFFFFF 0 = 0xC704DD7B ∧ crcCommand 0 = 0xC704DD7B ∧
    crcWord 0xFFFFFFFF 0x31323334 = 0xA695C4AA ∧ crcFullImage [0x31, 0x32, 0x33, 0x34] = 0xA695C4AA

/-- CRC_UPDATE (40_crc.md R113): ACC accumulates `IBUF[0..N)` padded to whole words, or ERR_LENGTH. -/
def Obligations.CrcUpdateAccumulates : Prop :=
  (∀ w : Word, w &&& 0xFE0000FF = 0x04 → decodeWord w = .ok (.crcUpdate (w.extractLsb' 16 9).toNat)) ∧
    (∀ (n : Nat) (s : State),
      (n ≤ 256 → exec (.crcUpdate n) s =
        .next { s with acc := crcRaw (pad4 (s.mem.load 0x100 n)) s.acc, operr := .ok }) ∧
      (256 < n → exec (.crcUpdate n) s = .next { s with operr := .errLength }) ∧
      exec (.crcUpdate 0) s = .next { s with operr := .ok }) ∧
    crcRaw (pad4 [0x31, 0x32, 0x33, 0x34, 0x35, 0x36, 0x37, 0x38, 0x39]) 0xFFFFFFFF = 0xAE24E09D

/-- CRC_FULL (40_crc.md R114): ACC is the full-image CRC of `IBUF[0..N)`, as CRC_INIT then CRC_UPDATE gives it. -/
def Obligations.CrcFullComputesImageCrc : Prop :=
  (∀ w : Word, w &&& 0xFE0000FF = 0x05 → decodeWord w = .ok (.crcFull (w.extractLsb' 16 9).toNat)) ∧
    (∀ (n : Nat) (s : State),
      (n ≤ 256 → exec (.crcFull n) s =
        .next { s with acc := crcRaw (pad4 (s.mem.load 0x100 n)) 0xFFFFFFFF, operr := .ok }) ∧
      (256 < n → exec (.crcFull n) s = .next { s with operr := .errLength }) ∧
      exec (.crcFull 0) s = .next { s with acc := 0xFFFFFFFF, operr := .ok } ∧
      (n ≤ 256 → ∀ t, exec .crcInit s = .next t → exec (.crcUpdate n) t = exec (.crcFull n) s)) ∧
    crcFullImage [0x31, 0x32, 0x33, 0x34] = 0xA695C4AA

/-- CRC_FIXED16 (40_crc.md R115): the 16-byte window of `IBUF[0..N)`, zero beyond N. -/
def Obligations.CrcFixed16ComputesWindowCrc : Prop :=
  (∀ w : Word, w &&& 0xFE0000FF = 0x06 → decodeWord w = .ok (.crcFixed16 (w.extractLsb' 16 9).toNat)) ∧
    (∀ (n : Nat) (s : State),
      (n < 16 → exec (.crcFixed16 n) s =
        .next { s with acc := crcRaw (s.mem.load 0x100 n ++ zeros (16 - n)) 0xFFFFFFFF, operr := .ok }) ∧
      (16 ≤ n → n ≤ 256 → exec (.crcFixed16 n) s =
        .next { s with acc := crcRaw (s.mem.load 0x100 16) 0xFFFFFFFF, operr := .ok }) ∧
      (256 < n → exec (.crcFixed16 n) s = .next { s with operr := .errLength }) ∧
      exec (.crcFixed16 0) s = .next { s with acc := 0x552D22C8, operr := .ok }) ∧
    crcFixed16 [0xAB, 0xCD, 0xEF, 0x01] = 0xF225FA43 ∧ crcFixed16 (List.replicate 16 0x11) = 0x22828FD7 ∧
    crcFixed16 (List.replicate 16 0x11 ++ [0x22]) = 0x22828FD7

/-- CRC_DATAPACK (40_crc.md R116): the 256-byte window of `IBUF[0..N)`, zero beyond N. -/
def Obligations.CrcDatapackComputesWindowCrc : Prop :=
  (∀ w : Word, w &&& 0xFE0000FF = 0x07 → decodeWord w = .ok (.crcDatapack (w.extractLsb' 16 9).toNat)) ∧
    (∀ (n : Nat) (s : State),
      (n ≤ 256 → exec (.crcDatapack n) s =
        .next { s with acc := crcRaw (s.mem.load 0x100 n ++ zeros (256 - n)) 0xFFFFFFFF, operr := .ok }) ∧
      (256 < n → exec (.crcDatapack n) s = .next { s with operr := .errLength }) ∧
      exec (.crcDatapack 0) s = .next { s with acc := 0xE55E964F, operr := .ok }) ∧
    crcFixedDatapack (List.replicate 256 0xFF) = 0x7BEAEA80 ∧ crcFixedDatapack [0x41, 0x42, 0x43] = 0xA9381E47

/-- CRC_COMMAND (40_crc.md R117): the command-byte CRC of B, whatever ACC was. -/
def Obligations.CrcCommandHashesByte : Prop :=
  (∀ w : Word, w &&& 0xFE0000FF = 0x08 → decodeWord w = .ok (.crcCommand (w.extractLsb' 8 8))) ∧
    (∀ (b : Byte) (s : State),
      exec (.crcCommand b) s = .next { s with acc := crcRaw [b, 0, 0, 0] 0xFFFFFFFF, operr := .ok }) ∧
    crcCommand 0 = 0xC704DD7B ∧ crcCommand 1 = 0x1B6947CC

/-- No CRC result depends on IBUF bytes beyond those the command reads (40_crc.md R124, which the spec marks as
derived). -/
def Obligations.CrcIgnoresStaleIbuf : Prop :=
  ∀ (s t : State) (n : Nat), s.acc = t.acc →
    (s.mem.load 0x100 (min n 16) = t.mem.load 0x100 (min n 16) → ∀ s' t',
      exec (.crcFixed16 n) s = .next s' → exec (.crcFixed16 n) t = .next t' → s'.acc = t'.acc) ∧
    (s.mem.load 0x100 (min n 256) = t.mem.load 0x100 (min n 256) → ∀ s' t',
      exec (.crcDatapack n) s = .next s' → exec (.crcDatapack n) t = .next t' → s'.acc = t'.acc) ∧
    (s.mem.load 0x100 n = t.mem.load 0x100 n → ∀ i, i = .crcUpdate n ∨ i = .crcFull n → ∀ s' t',
      exec i s = .next s' → exec i t = .next t' → s'.acc = t'.acc)

/-- A host that loads and accumulates the pieces of an image in order, after CRC_INIT, gets the full-image CRC, if
every piece but the last has a length that is a multiple of 4 (40_crc.md R118, which the spec marks as derived). -/
def Obligations.ChunkedCrcEqualsImageCrc : Prop :=
  ∀ (ps : List (List Byte)) (last : List Byte) (s : State),
    (∀ p ∈ ps, p.length % 4 = 0 ∧ p.length ≤ 256) → last.length ≤ 256 → ∃ t,
      hostRuns (commandLine .crcInit :: crcPieces (ps ++ [last])) s = .next t ∧
        t.acc = crcFullImage ((ps ++ [last]).flatten)

/-- After CRC_IMAGE over any byte sequence, of any length, ACC is its full-image CRC, and every operand, encoder and
decoder register and every byte outside IBUF is as before (30_encoding.md R77, 40_crc.md R118, 10_state.md R38; the spec
marks these rules as derived). -/
def Obligations.CrcImageComputesFullImageCrc : Prop :=
  ∀ (image : List Byte) (s : State), ∃ t,
    hostRuns (crcImage image) s = .next t ∧ t.acc = crcFullImage image ∧ t.operr = .ok ∧ t.arg0 = s.arg0 ∧
      t.arg1 = s.arg1 ∧ t.fcrc = s.fcrc ∧ t.olen = s.olen ∧ t.devent = s.devent ∧ t.dstate = s.dstate ∧
      t.dtype = s.dtype ∧ t.dlen = s.dlen ∧ t.dcrc = s.dcrc ∧ t.dcalc = s.dcalc ∧ t.dcnt = s.dcnt ∧
      (∀ a, a < 0x100 ∨ 0x200 ≤ a → t.mem.read a = s.mem.read a) ∧ t.pending = []

/-- LOAD_IBUF puts its bytes at the start of IBUF and changes nothing else (30_encoding.md R77). -/
def Obligations.LoadIbufFillsIbuf : Prop :=
  ∀ (bs : List Byte) (s : State), bs.length ≤ 256 → ∃ m : Memory, ∃ d : Option Word,
    hostRuns (loadIbuf bs) s = .next { s with mem := m, pending := [], readData := d } ∧
      ∀ a, m.read a = if 0x100 ≤ a ∧ a < 0x100 + bs.length then bs.getD (a - 0x100) 0 else s.mem.read a

/-- LOAD_IBUF by 32-bit writes leaves the same IBUF as by 8-bit writes, and everything else the same
(30_encoding.md R77). -/
def Obligations.LoadIbufByWordsIsTheSame : Prop :=
  ∀ (bs : List Byte) (s : State), bs.length ≤ 256 → ∃ t u,
    hostRuns (loadIbufByWords bs) s = .next t ∧ hostRuns (loadIbuf bs) s = .next u ∧
      t = { u with mem := t.mem } ∧ ∀ a, t.mem.read a = u.mem.read a

/-! ### Encode commands -/

/-- The state after a successful encode command that built the frame `f` with CRC field `c` (41_encode.md R141): OBUF
holds `f` and zeros after it, OLEN its length, FCRC `c`; every other byte and register is as before. -/
def Sys2Proof.Machine.specEncoded (i : Instr) (s : State) (f : List Byte) (c : Word) : Prop :=
  ∃ m : Memory,
    exec i s = .next { s with mem := m, olen := BitVec.ofNat 32 f.length, fcrc := c, operr := .ok } ∧
      ∀ a, m.read a = if 0x200 ≤ a ∧ a < 0x200 + 266 then f.getD (a - 0x200) 0 else s.mem.read a

/-- ENC_COMMAND (41_encode.md R142). -/
def Obligations.EncCommandBuildsFrame : Prop :=
  (∀ w : Word, w &&& 0xFE0000FF = 0x10 → decodeWord w = .ok (.encCommand (w.extractLsb' 8 8))) ∧
    (∀ (b : Byte) (s : State), b.toNat ≤ 1 →
      specEncoded (.encCommand b) s ([0x24, 0x00, 0x01, 0x00, b] ++ le32 (crcRaw [b, 0, 0, 0] 0xFFFFFFFF) ++ [0x0D, 0x0A])
        (crcRaw [b, 0, 0, 0] 0xFFFFFFFF)) ∧
    (∀ (b : Byte) (s : State), 1 < b.toNat → exec (.encCommand b) s = .next { s with operr := .errArg }) ∧
    frame 0 [0] (crcCommand 0) = [0x24, 0x00, 0x01, 0x00, 0x00, 0x7B, 0xDD, 0x04, 0xC7, 0x0D, 0x0A]

/-- ENC_DATA (41_encode.md R143): the length field is N, the CRC covers the zero-padded 256-byte window. -/
def Obligations.EncDataBuildsFrame : Prop :=
  (∀ w : Word, w &&& 0xFE0000FF = 0x11 → decodeWord w = .ok (.encData (w.extractLsb' 16 9).toNat)) ∧
    (∀ (n : Nat) (s : State), 1 ≤ n → n ≤ 256 →
      specEncoded (.encData n) s
        ([0x24, 0x01, BitVec.ofNat 8 n, BitVec.ofNat 8 (n / 256)] ++ s.mem.load 0x100 n ++
          le32 (crcRaw (s.mem.load 0x100 n ++ zeros (256 - n)) 0xFFFFFFFF) ++ [0x0D, 0x0A])
        (crcRaw (s.mem.load 0x100 n ++ zeros (256 - n)) 0xFFFFFFFF)) ∧
    (∀ (n : Nat) (s : State), n = 0 ∨ 256 < n → exec (.encData n) s = .next { s with operr := .errLength }) ∧
    frame 1 [0x41, 0x42, 0x43] (crcFixedDatapack [0x41, 0x42, 0x43]) =
      [0x24, 0x01, 0x03, 0x00, 0x41, 0x42, 0x43, 0x47, 0x1E, 0x38, 0xA9, 0x0D, 0x0A]

/-- ENC_HEADER (41_encode.md R144): ARG0 is the image size, ARG1 the image CRC, the reserved words are zero. -/
def Obligations.EncHeaderBuildsFrame : Prop :=
  (∀ w : Word, w &&& 0xFE0000FF = 0x12 → decodeWord w = .ok .encHeader) ∧
    (∀ s : State,
      specEncoded .encHeader s
        ([0x24, 0x02, 0x10, 0x00] ++ le32 s.arg0 ++ le32 s.arg1 ++ [0, 0, 0, 0, 0, 0, 0, 0] ++
          le32 (crcRaw (le32 s.arg0 ++ le32 s.arg1 ++ zeros 8) 0xFFFFFFFF) ++ [0x0D, 0x0A])
        (crcRaw (le32 s.arg0 ++ le32 s.arg1 ++ zeros 8) 0xFFFFFFFF)) ∧
    crcFullImage [0x48, 0x45, 0x4C, 0x4C, 0x4F] = 0xD7E2D253 ∧
    frame 2 (headerPayload 5 0xD7E2D253) (crcFixed16 (headerPayload 5 0xD7E2D253)) =
      [0x24, 0x02, 0x10, 0x00, 0x05, 0x00, 0x00, 0x00, 0x53, 0xD2, 0xE2, 0xD7, 0x00, 0x00, 0x00, 0x00, 0x00, 0x00, 0x00,
        0x00, 0xCB, 0x9E, 0xF1, 0x68, 0x0D, 0x0A]

/-- ENC_BULK_HEADER (41_encode.md R145): the CRC window is the 4 payload bytes and 12 zeros. -/
def Obligations.EncBulkHeaderBuildsFrame : Prop :=
  (∀ w : Word, w &&& 0xFE0000FF = 0x13 → decodeWord w = .ok .encBulkHeader) ∧
    (∀ s : State,
      specEncoded .encBulkHeader s
        ([0x24, 0x03, 0x04, 0x00] ++ le32 s.arg0 ++ le32 (crcRaw (le32 s.arg0 ++ zeros 12) 0xFFFFFFFF) ++ [0x0D, 0x0A])
        (crcRaw (le32 s.arg0 ++ zeros 12) 0xFFFFFFFF)) ∧
    crcRaw (le32 0xFFFFFFFF ++ zeros 12) 0xFFFFFFFF = 0 ∧
    frame 3 (bulkHeaderPayload 0xD7E2D253) (crcFixed16 (bulkHeaderPayload 0xD7E2D253)) =
      [0x24, 0x03, 0x04, 0x00, 0x53, 0xD2, 0xE2, 0xD7, 0x37, 0xFA, 0xAB, 0x0B, 0x0D, 0x0A]

/-- The frame an encode command leaves in OBUF is the source's encoder function of the same image, page, chunk or
command, when the host drives the block as R146 of 41_encode.md says (the spec marks it as derived). -/
def Obligations.EncodersAgreeWithSource : Prop :=
  (∀ (image : List Byte) (s : State), image.length < 2 ^ 32 → ∃ t,
    hostRuns [setArg0 (BitVec.ofNat 32 image.length), setArg1 (crcFullImage image), commandLine .encHeader] s = .next t ∧
      t.mem.load 0x200 t.olen.toNat = encodeHeader image) ∧
  (∀ (page : List Byte) (s : State), ∃ t,
    hostRuns [setArg0 (crcFullImage page), commandLine .encBulkHeader] s = .next t ∧
      t.mem.load 0x200 t.olen.toNat = encodeBulkHeader page) ∧
  (∀ (chunk : List Byte) (s : State), 1 ≤ chunk.length → chunk.length ≤ 256 → ∃ t,
    hostRuns (loadIbuf chunk ++ [commandLine (.encData chunk.length)]) s = .next t ∧
      t.mem.load 0x200 t.olen.toNat = encodeData chunk) ∧
  ∀ (b : Byte) (s : State), b.toNat ≤ 1 → ∃ t,
    hostRuns [commandLine (.encCommand b)] s = .next t ∧ t.mem.load 0x200 t.olen.toNat = encodeCommand b

/-- Encode commands issued in two states with the same operands leave the same OBUF, OLEN and FCRC
(41_encode.md R147, which the spec marks as derived). -/
def Obligations.EncodedFrameDependsOnOperandsOnly : Prop :=
  ∀ (i : Instr) (s t s' t' : State), familyOf i = .enc → s.arg0 = t.arg0 → s.arg1 = t.arg1 →
    s.mem.load 0x100 (countField i) = t.mem.load 0x100 (countField i) →
    exec i s = .next s' → exec i t = .next t' → s'.operr = t'.operr ∧
      (s'.operr = .ok → s'.olen = t'.olen ∧ s'.fcrc = t'.fcrc ∧ s'.mem.load 0x200 266 = t'.mem.load 0x200 266)

/-- The length field of every encoded frame is OLEN − 10, with OLEN from 11 to 266, and a Header frame carries length 16
and ARG0 (41_encode.md R148, which the spec marks as derived; 10_state.md R25 for the bounds). -/
def Obligations.EncodedLengthFieldIsOlenLessTen : Prop :=
  ∀ (i : Instr) (s t : State), familyOf i = .enc → exec i s = .next t → t.operr = .ok →
    11 ≤ t.olen.toNat ∧ t.olen.toNat ≤ 266 ∧ (u16le (t.mem.load 0x200 266) 2).toNat = t.olen.toNat - 10 ∧
      (i = .encHeader → u16le (t.mem.load 0x200 266) 2 = 16 ∧ u32le (t.mem.load 0x200 266) 4 = s.arg0)

/-- The CRC field of every encoded frame is FCRC, and the frame starts with 0x24 and ends with 0x0D 0x0A
(41_encode.md R149, which the spec marks as derived). -/
def Obligations.EncodedCrcFieldIsFcrc : Prop :=
  ∀ (i : Instr) (s t : State), familyOf i = .enc → exec i s = .next t → t.operr = .ok →
    u32le (t.mem.load 0x200 266) (t.olen.toNat - 6) = t.fcrc ∧ t.mem.read (0x200 + t.olen.toNat - 2) = 0x0D ∧
      t.mem.read (0x200 + t.olen.toNat - 1) = 0x0A ∧ t.mem.read 0x200 = 0x24

/-! ### Decoder commands -/

/-- DEC_RESET (42_decode.md R170). -/
def Obligations.DecResetClearsDecoder : Prop :=
  (∀ w : Word, w &&& 0xFE0000FF = 0x20 → decodeWord w = .ok .decReset) ∧
    ∀ s : State, ∃ m : Memory,
      exec .decReset s = .next { s with
        dstate := .hunt, devent := .noEvent, dtype := 0, dlen := 0, dcrc := 0, dcalc := 0, dcnt := 0, mem := m,
        operr := .ok } ∧
      ∀ a, m.read a = if 0x400 ≤ a ∧ a < 0x500 then 0 else s.mem.read a

/-- DEC_BYTE accepts every byte in every state and is never a command error (42_decode.md R171). -/
def Obligations.DecByteAlwaysCompletes : Prop :=
  (∀ w : Word, w &&& 0xFE0000FF = 0x21 → decodeWord w = .ok (.decByte (w.extractLsb' 8 8))) ∧
    ∀ (b : Byte) (s : State), ∃ t, exec (.decByte b) s = .next t ∧ t.operr = .ok

/-- DEC_BYTE in HUNT: an SOF starts a frame, any other byte is discarded (42_decode.md R172). -/
def Obligations.DecByteInHunt : Prop :=
  ∀ (b : Byte) (s : State), s.dstate = .hunt →
    (b ≠ 0x24 → exec (.decByte b) s = .next { s with operr := .ok }) ∧
    (b = 0x24 → ∃ m : Memory,
      exec (.decByte b) s = .next { s with
        dtype := 0, dlen := 0, dcrc := 0, dcalc := 0, dcnt := 0, mem := m, devent := .noEvent, dstate := .typ,
        operr := .ok } ∧
      ∀ a, m.read a = if 0x400 ≤ a ∧ a < 0x500 then 0 else s.mem.read a)

/-- DEC_BYTE in TYPE: types 0 to 3 pass, 4 is reserved, the others are bad (42_decode.md R173). -/
def Obligations.DecByteInType : Prop :=
  ∀ (b : Byte) (s : State), s.dstate = .typ →
    (b.toNat ≤ 3 → exec (.decByte b) s = .next { s with dtype := b, dstate := .lenLo, operr := .ok }) ∧
    (b.toNat = 4 → exec (.decByte b) s =
      .next { s with dtype := b, devent := .reservedType, dstate := .hunt, operr := .ok }) ∧
    (5 ≤ b.toNat → exec (.decByte b) s =
      .next { s with dtype := b, devent := .badType, dstate := .hunt, operr := .ok })

/-- The legal payload lengths of 42_decode.md R175. -/
def Sys2Proof.Machine.specLegal (t : Byte) (l : Nat) : Prop :=
  (t = 0 ∧ l = 1) ∨ (t = 1 ∧ 1 ≤ l ∧ l ≤ 256) ∨ (t = 2 ∧ l = 16) ∨ (t = 3 ∧ l = 4)

/-- DEC_BYTE in LEN_LO and LEN_HI: the length field, little-endian, and its check against the type
(42_decode.md R174, R175). -/
def Obligations.DecByteInLength : Prop :=
  ∀ (b : Byte) (s : State),
    (s.dstate = .lenLo → exec (.decByte b) s =
      .next { s with dlen := b.zeroExtend 16, dstate := .lenHi, operr := .ok }) ∧
    (s.dstate = .lenHi → ∀ l : BitVec 16, l = s.dlen ||| (b.zeroExtend 16 <<< 8) →
      (specLegal s.dtype l.toNat → exec (.decByte b) s =
        .next { s with dlen := l, dstate := .payload, operr := .ok }) ∧
      (¬ specLegal s.dtype l.toNat → exec (.decByte b) s =
        .next { s with dlen := l, devent := .badLength, dstate := .hunt, operr := .ok }))

/-- DEC_BYTE in PAYLOAD: the byte goes to DBUF[DCNT], and the byte that makes DCNT = DLEN ends the payload
(42_decode.md R176). DCNT below 256 holds in every state the invariant admits (`Obligations.StepKeepsInvariant`). -/
def Obligations.DecByteInPayload : Prop :=
  ∀ (b : Byte) (s : State), s.dstate = .payload → s.dcnt.toNat < 256 → ∃ m : Memory,
    ((s.dcnt.toNat + 1 = s.dlen.toNat → exec (.decByte b) s =
        .next { s with mem := m, dcnt := s.dcnt + 1, dstate := .crc0, operr := .ok }) ∧
      (s.dcnt.toNat + 1 ≠ s.dlen.toNat → exec (.decByte b) s =
        .next { s with mem := m, dcnt := s.dcnt + 1, operr := .ok })) ∧
      ∀ a, m.read a = if a = 0x400 + s.dcnt.toNat then b else s.mem.read a

/-- DEC_BYTE in CRC0, CRC1 and CRC2: bytes 0 to 2 of the CRC field, little-endian (42_decode.md R177). -/
def Obligations.DecByteInCrcField : Prop :=
  ∀ (b : Byte) (s : State),
    (s.dstate = .crc0 → exec (.decByte b) s =
      .next { s with dcrc := s.dcrc ||| b.zeroExtend 32, dstate := .crc1, operr := .ok }) ∧
    (s.dstate = .crc1 → exec (.decByte b) s =
      .next { s with dcrc := s.dcrc ||| (b.zeroExtend 32 <<< 8), dstate := .crc2, operr := .ok }) ∧
    (s.dstate = .crc2 → exec (.decByte b) s =
      .next { s with dcrc := s.dcrc ||| (b.zeroExtend 32 <<< 16), dstate := .crc3, operr := .ok })

/-- DEC_BYTE in CRC3: the received CRC field against the CRC of the payload with the window of the type
(42_decode.md R178). -/
def Obligations.DecByteInCrc3 : Prop :=
  ∀ (b : Byte) (s : State) (own : Word), s.dstate = .crc3 →
    ((s.dtype = 0 ∧ own = crcCommand (byteAt (s.mem.load 0x400 s.dlen.toNat) 0)) ∨
      (s.dtype = 1 ∧ own = crcFixedDatapack (s.mem.load 0x400 s.dlen.toNat)) ∨
      ((s.dtype = 2 ∨ s.dtype = 3) ∧ own = crcFixed16 (s.mem.load 0x400 s.dlen.toNat))) →
    (own = s.dcrc ||| (b.zeroExtend 32 <<< 24) → exec (.decByte b) s =
      .next { s with dcrc := s.dcrc ||| (b.zeroExtend 32 <<< 24), dcalc := own, dstate := .cr, operr := .ok }) ∧
    (own ≠ s.dcrc ||| (b.zeroExtend 32 <<< 24) → exec (.decByte b) s =
      .next { s with
        dcrc := s.dcrc ||| (b.zeroExtend 32 <<< 24), dcalc := own, devent := .badCrc, dstate := .hunt,
        operr := .ok })

/-- DEC_BYTE in CR and LF: the terminator, and the complete frame (42_decode.md R179, R180). -/
def Obligations.DecByteInTerminator : Prop :=
  ∀ (b : Byte) (s : State),
    (s.dstate = .cr → (b = 0x0D → exec (.decByte b) s = .next { s with dstate := .lf, operr := .ok }) ∧
      (b ≠ 0x0D → exec (.decByte b) s = .next { s with devent := .badCr, dstate := .hunt, operr := .ok })) ∧
    (s.dstate = .lf →
      (b = 0x0A → exec (.decByte b) s = .next { s with devent := .frameOk, dstate := .hunt, operr := .ok }) ∧
      (b ≠ 0x0A → exec (.decByte b) s = .next { s with devent := .badLf, dstate := .hunt, operr := .ok }))

/-- A decoded frame stays valid, with its type, length, CRC, count and payload, under every command but DEC_RESET and
the next SOF byte (42_decode.md R182, which the spec marks as derived). -/
def Obligations.DecodedFrameStaysValid : Prop :=
  ∀ (i : Instr) (s t : State), BlockInv s → s.devent = .frameOk → i ≠ .decReset → i ≠ .decByte 0x24 →
    exec i s = .next t → t.devent = .frameOk ∧ t.dstate = .hunt ∧ t.dtype = s.dtype ∧ t.dlen = s.dlen ∧
      t.dcrc = s.dcrc ∧ t.dcalc = s.dcrc ∧ t.mem.load 0x400 256 = s.mem.load 0x400 256 ∧
      ∀ j, s.dlen.toNat ≤ j → j < 256 → t.mem.read (0x400 + j) = 0

/-- The round trip: the frame a successful encode command leaves in OBUF, fed to the decoder from HUNT, ends with
D_FRAME_OK on its last byte and on no earlier one, with the frame's type, length, payload and CRC recorded
(42_decode.md R185, which the spec marks as derived). -/
def Obligations.EncodedFrameDecodes : Prop :=
  ∀ (i : Instr) (s t : State) (f : List Byte), familyOf i = .enc → exec i s = .next t → t.operr = .ok →
    t.dstate = .hunt → f = t.mem.load 0x200 t.olen.toNat →
    (∃ u, hostRuns (feed f) t = .next u ∧ u.devent = .frameOk ∧ u.dstate = .hunt ∧ u.dtype = byteAt f 1 ∧
      u.dlen.toNat = t.olen.toNat - 10 ∧ u.mem.load 0x400 u.dlen.toNat = (f.drop 4).take (t.olen.toNat - 10) ∧
      u.dcrc = t.fcrc ∧ u.dcalc = t.fcrc) ∧
    ∀ k, 0 < k → k < f.length → ∃ v, hostRuns (feed (f.take k)) t = .next v ∧ v.devent ≠ .frameOk

/-- Every frame of a legal type and length with the CRC of its payload and the right terminator is accepted, whatever
its payload holds: command codes 2 to 255 and nonzero reserved header words included (42_decode.md R183). The recorded
fields (R182) and the L + 10 bytes with no event before the last one (R186) are laws the spec marks as derived. -/
def Obligations.LegalFrameDecodes : Prop :=
  ∀ (ty : Byte) (p : List Byte) (s : State), specLegal ty p.length → s.dstate = .hunt →
    (∃ u, hostRuns (feed (frame ty p (typeCrc ty p))) s = .next u ∧ u.devent = .frameOk ∧ u.dstate = .hunt ∧
      u.dtype = ty ∧ u.dlen.toNat = p.length ∧ u.mem.load 0x400 p.length = p ∧ u.dcrc = typeCrc ty p ∧
      u.dcalc = typeCrc ty p) ∧
    ∀ k, 0 < k → k < p.length + 10 → ∃ v, hostRuns (feed ((frame ty p (typeCrc ty p)).take k)) s = .next v ∧
      v.devent = .noEvent ∧ v.dstate ≠ .hunt

/-- A legal frame with a wrong CRC field, fed from HUNT, ends with D_BAD_CRC at its last CRC byte, byte 7 + L, and is
still being parsed before it (42_decode.md R178, R181, and R186, which the spec marks as derived). -/
def Obligations.WrongCrcEndsFrameAtLastCrcByte : Prop :=
  ∀ (ty : Byte) (p : List Byte) (c : Word) (s : State), specLegal ty p.length → c ≠ typeCrc ty p →
    s.dstate = .hunt →
    (∃ u, hostRuns (feed ((frame ty p c).take (8 + p.length))) s = .next u ∧ u.devent = .badCrc ∧ u.dstate = .hunt ∧
      u.dcrc = c ∧ u.dcalc = typeCrc ty p) ∧
    ∀ k, 0 < k → k < 8 + p.length →
      ∃ v, hostRuns (feed ((frame ty p c).take k)) s = .next v ∧ v.dstate ≠ .hunt ∧ v.devent = .noEvent

/-! ### Whole-machine rules -/

/-- Which commands write which state (10_state.md R38): no command writes CMD, ARG0, ARG1 or IBUF; only CRC commands
write ACC; only encode commands write FCRC, OLEN and OBUF; only decoder commands write the decoder's state. The spec
marks R38 as derived. -/
def Obligations.CommandsWriteOnlyTheirState : Prop :=
  ∀ (i : Instr) (s t : State), exec i s = .next t →
    t.cmd = s.cmd ∧ t.arg0 = s.arg0 ∧ t.arg1 = s.arg1 ∧ t.pending = s.pending ∧ t.readData = s.readData ∧
      (familyOf i ≠ .crc → t.acc = s.acc) ∧
      (familyOf i ≠ .enc → t.fcrc = s.fcrc ∧ t.olen = s.olen) ∧
      (familyOf i ≠ .dec → t.devent = s.devent ∧ t.dstate = s.dstate ∧ t.dtype = s.dtype ∧ t.dlen = s.dlen ∧
        t.dcrc = s.dcrc ∧ t.dcalc = s.dcalc ∧ t.dcnt = s.dcnt) ∧
      ∀ a, t.mem.read a ≠ s.mem.read a →
        (familyOf i = .enc ∧ 0x200 ≤ a ∧ a < 0x30A) ∨ (familyOf i = .dec ∧ 0x400 ≤ a ∧ a < 0x500)

/-- A command error leaves CMD holding the word and OPERR the code, and every other element unchanged
(60_exceptions.md R212). -/
def Obligations.CommandErrorChangesOnlyOperr : Prop :=
  ∀ (w : Word) (s t : State) (rest : List HostEvent),
    s.pending = .write 0x000 4 w :: rest → step s = .next t → t.operr ≠ .ok →
      t = { s with cmd := w, operr := t.operr, pending := rest, readData := none }

/-- The opcodes of 30_encoding.md R73. -/
def Sys2Proof.Machine.specOpcodes : List Nat :=
  [0x01, 0x02, 0x03, 0x04, 0x05, 0x06, 0x07, 0x08, 0x10, 0x11, 0x12, 0x13, 0x20, 0x21]

/-- The OPERR code a command word gets: the first failing check in the order RSV, OP, the command's own
(60_exceptions.md R211, R216). -/
def Sys2Proof.Machine.specOperr (rsv op b n : Nat) : OpErr :=
  if rsv ≠ 0 then .errOpcode
  else if op ∉ specOpcodes then .errOpcode
  else if (op = 0x04 ∨ op = 0x05 ∨ op = 0x06 ∨ op = 0x07) ∧ 256 < n then .errLength
  else if op = 0x11 ∧ (n = 0 ∨ 256 < n) then .errLength
  else if op = 0x10 ∧ 1 < b then .errArg
  else .ok

/-- Every write to CMD completes and sets OPERR to exactly the code that the first failing check decides
(60_exceptions.md R211, R216). -/
def Obligations.FirstFailingCheckDecidesOperr : Prop :=
  ∀ (w : Word) (s : State) (rest : List HostEvent), s.pending = .write 0x000 4 w :: rest → ∃ t, step s = .next t ∧
    t.operr = specOperr (w.extractLsb' 25 7).toNat (w.extractLsb' 0 8).toNat (w.extractLsb' 8 8).toNat
      (w.extractLsb' 16 9).toNat

/-- Every command completes, with exactly the OPERR codes that 60_exceptions.md R213 lists for it (the spec marks that rule as
derived). -/
def Obligations.CommandErrorCodes : Prop :=
  ∀ (i : Instr) (s : State), ∃ t, exec i s = .next t ∧
    (t.operr = .ok ∨
      (t.operr = .errLength ∧ ((∃ n, (i = .crcUpdate n ∨ i = .crcFull n ∨ i = .crcFixed16 n ∨ i = .crcDatapack n) ∧
        256 < n) ∨ ∃ n, i = .encData n ∧ (n = 0 ∨ 256 < n))) ∨
      (t.operr = .errArg ∧ ∃ b : Byte, i = .encCommand b ∧ 1 < b.toNat))

/-- The state after reset meets the invariant (70_reset_and_hazards.md R241). -/
def Obligations.ResetMeetsInvariant : Prop := BlockInv State.reset

/-- Every step keeps the invariant: the buffer memory is canonical and confined to the buffers, OBUF holds a whole
frame with its OLEN and FCRC, and the decoder's fields fit its state. -/
def Obligations.StepKeepsInvariant : Prop :=
  ∀ s t : State, BlockInv s → step s = .next t → BlockInv t
end

