-- ==== Sys2Proof/Laws/Bytes.lean ====
section
/-! SUPPORT. Small laws of byte sequences, byte orders, padding and frames: lengths, and which bit of a word each
byte holds. -/

namespace Sys2Proof.Machine

/-- The bits of four bytes side by side, the first one the most significant. -/
theorem append4_getLsbD (a b c d : Byte) (i : Nat) :
    BitVec.getLsbD (w := 32) (a ++ b ++ c ++ d) i =
      if i < 8 then d.getLsbD i else if i < 16 then c.getLsbD (i - 8)
        else if i < 24 then b.getLsbD (i - 16) else a.getLsbD (i - 24) := by
  change BitVec.getLsbD (w := 8 + 8 + 8 + 8) (a ++ b ++ c ++ d) i = _
  simp only [BitVec.getLsbD_append, Nat.sub_sub]
  by_cases h0 : i < 8
  · simp [h0]
  by_cases h1 : i < 16
  · simp [h0, h1, show i - 8 < 8 by omega]
  by_cases h2 : i < 24
  · simp [h0, h1, h2, show ¬ i - 8 < 8 by omega, show i - 16 < 8 by omega]
  · simp [h0, h1, h2, show ¬ i - 8 < 8 by omega, show ¬ i - 16 < 8 by omega]

theorem be32_getLsbD (b0 b1 b2 b3 : Byte) (i : Nat) :
    (be32 b0 b1 b2 b3).getLsbD i =
      if i < 8 then b3.getLsbD i else if i < 16 then b2.getLsbD (i - 8)
        else if i < 24 then b1.getLsbD (i - 16) else b0.getLsbD (i - 24) :=
  append4_getLsbD ..

theorem wordOfLanes_getLsbD (b0 b1 b2 b3 : Byte) (i : Nat) :
    (wordOfLanes b0 b1 b2 b3).getLsbD i =
      if i < 8 then b0.getLsbD i else if i < 16 then b1.getLsbD (i - 8)
        else if i < 24 then b2.getLsbD (i - 16) else b3.getLsbD (i - 24) :=
  append4_getLsbD ..

@[simp] theorem be32_byte0 (b0 b1 b2 b3 : Byte) : (be32 b0 b1 b2 b3).extractLsb' 24 8 = b0 := by
  apply BitVec.eq_of_getLsbD_eq
  intro i hi
  rw [BitVec.getLsbD_extractLsb', be32_getLsbD, if_neg (by omega), if_neg (by omega), if_neg (by omega),
    Nat.add_sub_cancel_left]
  simp [hi]

@[simp] theorem be32_byte1 (b0 b1 b2 b3 : Byte) : (be32 b0 b1 b2 b3).extractLsb' 16 8 = b1 := by
  apply BitVec.eq_of_getLsbD_eq
  intro i hi
  rw [BitVec.getLsbD_extractLsb', be32_getLsbD, if_neg (by omega), if_neg (by omega), if_pos (by omega),
    Nat.add_sub_cancel_left]
  simp [hi]

@[simp] theorem be32_byte2 (b0 b1 b2 b3 : Byte) : (be32 b0 b1 b2 b3).extractLsb' 8 8 = b2 := by
  apply BitVec.eq_of_getLsbD_eq
  intro i hi
  rw [BitVec.getLsbD_extractLsb', be32_getLsbD, if_neg (by omega), if_pos (by omega), Nat.add_sub_cancel_left]
  simp [hi]

@[simp] theorem be32_byte3 (b0 b1 b2 b3 : Byte) : (be32 b0 b1 b2 b3).extractLsb' 0 8 = b3 := by
  apply BitVec.eq_of_getLsbD_eq
  intro i hi
  rw [BitVec.getLsbD_extractLsb', be32_getLsbD, if_pos (by omega), Nat.zero_add]
  simp [hi]

/-- The four byte lanes of a word put together again. -/
@[simp] theorem wordOfLanes_lanes (w : Word) :
    wordOfLanes (w.extractLsb' 0 8) (w.extractLsb' 8 8) (w.extractLsb' 16 8) (w.extractLsb' 24 8) = w := by
  apply BitVec.eq_of_getLsbD_eq
  intro i hi
  rw [wordOfLanes_getLsbD]
  simp only [BitVec.getLsbD_extractLsb']
  split
  · simp [*]
  split
  · simp [show i - 8 < 8 by omega, show 8 + (i - 8) = i by omega]
  split
  · simp [show i - 16 < 8 by omega, show 16 + (i - 16) = i by omega]
  · simp [show i - 24 < 8 by omega, show 24 + (i - 24) = i by omega]

@[simp] theorem ofLe32_lanes (w : Word) :
    ofLe32 (w.extractLsb' 0 8) (w.extractLsb' 8 8) (w.extractLsb' 16 8) (w.extractLsb' 24 8) = w :=
  wordOfLanes_lanes w

/-! ### Lengths -/

@[simp] theorem zeros_length (n : Nat) : (zeros n).length = n := List.length_replicate

@[simp] theorem zeros_getD (n i : Nat) : (zeros n).getD i 0 = 0 := by
  simp only [zeros, List.getD_eq_getElem?_getD, List.getElem?_replicate]
  split <;> rfl

@[simp] theorem le16_length (v : BitVec 16) : (le16 v).length = 2 := rfl

@[simp] theorem le32_length (v : Word) : (le32 v).length = 4 := rfl

theorem pad4_of_dvd {s : List Byte} (h : s.length % 4 = 0) : pad4 s = s := by simp [pad4, h, zeros]

theorem pad4_length_mod (s : List Byte) : (pad4 s).length % 4 = 0 := by
  simp only [pad4, List.length_append, zeros_length]; omega

theorem window_of_le {s : List Byte} {n : Nat} (h : s.length ≤ n) : window s n = s ++ zeros (n - s.length) := by
  rw [window, List.take_of_length_le h, Nat.min_eq_left h]

theorem window_of_ge {s : List Byte} {n : Nat} (h : n ≤ s.length) : window s n = s.take n := by
  rw [window, Nat.min_eq_right h, Nat.sub_self]; simp [zeros]

@[simp] theorem window_length (s : List Byte) (n : Nat) : (window s n).length = n := by
  simp only [window, List.length_append, List.length_take, zeros_length]; omega

@[simp] theorem frame_length (t : Byte) (p : List Byte) (c : Word) : (frame t p c).length = p.length + 10 := by
  simp only [frame, List.length_append, List.length_cons, List.length_nil, le16_length, le32_length]; omega

/-- The core continues over a concatenation (the reason of R118). -/
theorem crcRaw_append (a b : List Byte) (c : Word) : crcRaw (a ++ b) c = crcRaw b (crcRaw a c) :=
  List.foldl_append

@[simp] theorem crcRaw_nil (c : Word) : crcRaw [] c = c := rfl

@[simp] theorem crcRaw_cons (b : Byte) (s : List Byte) (c : Word) : crcRaw (b :: s) c = crcRaw s (crcStep c b) := rfl

end Sys2Proof.Machine
end

