-- ==== Sys2Proof/Laws/Memory.lean ====
section
/-! SUPPORT. The laws of the buffer memory: a load after a store, and the canonical form. -/

namespace Sys2Proof.Machine

theorem read_of_no_key {m : Memory} {a : Nat} (h : ∀ c ∈ m, c.1 ≠ a) : m.read a = 0 := by
  induction m with
  | nil => rfl
  | cons c m ih =>
    obtain ⟨k, b⟩ := c
    have hk : k ≠ a := h (k, b) (by simp)
    simp only [Memory.read, if_neg hk]
    exact ih fun c hc => h c (by simp [hc])

theorem read_append_of_no_key {m n : Memory} {a : Nat} (h : ∀ c ∈ m, c.1 ≠ a) :
    Memory.read (m ++ n) a = n.read a := by
  induction m with
  | nil => rfl
  | cons c m ih =>
    obtain ⟨k, b⟩ := c
    have hk : k ≠ a := h (k, b) (by simp)
    simp only [List.cons_append, Memory.read, if_neg hk]
    exact ih fun c hc => h c (by simp [hc])

theorem read_append_left {m n : Memory} {a : Nat} (h : ∀ c ∈ n, c.1 ≠ a) :
    Memory.read (m ++ n) a = m.read a := by
  induction m with
  | nil => exact read_of_no_key h
  | cons c m ih =>
    obtain ⟨k, b⟩ := c
    simp only [List.cons_append, Memory.read, ih]

theorem read_filter {m : Memory} {a : Nat} {p : Host.Cell → Bool} (h : ∀ b, p (a, b) = true) :
    Memory.read (m.filter p) a = m.read a := by
  induction m with
  | nil => rfl
  | cons c m ih =>
    obtain ⟨k, b⟩ := c
    by_cases hk : k = a
    · subst hk; simp [Memory.read, h b]
    · by_cases hp : p (k, b) = true <;> simp [Memory.read, hp, hk, ih]

theorem cellsAt_cons_zero (lo : Nat) (bs : List Byte) : cellsAt lo (0 :: bs) = cellsAt (lo + 1) bs := by
  rw [cellsAt, if_pos rfl]

theorem cellsAt_cons_ne (lo : Nat) {b : Byte} (bs : List Byte) (h : b ≠ 0) :
    cellsAt lo (b :: bs) = (lo, b) :: cellsAt (lo + 1) bs := by
  rw [cellsAt, if_neg h]

theorem cellsAt_key {lo : Nat} {bs : List Byte} : ∀ c ∈ cellsAt lo bs, lo ≤ c.1 ∧ c.1 < lo + bs.length := by
  induction bs generalizing lo with
  | nil => simp [cellsAt]
  | cons b bs ih =>
    intro c hc
    rw [cellsAt] at hc
    split at hc
    · have := ih c hc; simp only [List.length_cons]; omega
    · rcases List.mem_cons.mp hc with rfl | hc
      · simp
      · have := ih c hc; simp only [List.length_cons]; omega

theorem read_cellsAt {lo a : Nat} {bs : List Byte} (h : lo ≤ a) :
    Memory.read (cellsAt lo bs) a = bs.getD (a - lo) 0 := by
  induction bs generalizing lo with
  | nil => simp [cellsAt, Memory.read]
  | cons b bs ih =>
    by_cases ha : lo = a
    · subst ha
      rw [Nat.sub_self, List.getD_cons_zero]
      by_cases hb : b = 0
      · rw [hb, cellsAt_cons_zero]
        exact read_of_no_key fun c hc => by have := cellsAt_key c hc; omega
      · rw [cellsAt_cons_ne _ _ hb, Memory.read, if_pos rfl]
    · have hle : lo + 1 ≤ a := by omega
      have hs : a - lo = (a - (lo + 1)) + 1 := by omega
      rw [hs, List.getD_cons_succ, ← ih hle]
      by_cases hb : b = 0
      · rw [hb, cellsAt_cons_zero]
      · rw [cellsAt_cons_ne _ _ hb, Memory.read, if_neg ha]

/-- A stored byte reads back, and every other byte reads as before. -/
theorem read_store (m : Memory) (lo : Nat) (bs : List Byte) (a : Nat) :
    (m.store lo bs).read a = if lo ≤ a ∧ a < lo + bs.length then bs.getD (a - lo) 0 else m.read a := by
  have hmid := @cellsAt_key lo bs
  unfold Memory.store
  split
  · next h =>
    rw [List.append_assoc, read_append_of_no_key, read_append_left, read_cellsAt h.1]
    · intro c hc
      have := (List.mem_filter.mp hc).2
      simp at this; omega
    · intro c hc
      have := (List.mem_filter.mp hc).2
      simp at this; omega
  · next h =>
    by_cases ha : a < lo
    · rw [List.append_assoc, read_append_left, read_filter (by simpa using ha)]
      intro c hc
      rcases List.mem_append.mp hc with hc | hc
      · have := hmid c hc; omega
      · have := (List.mem_filter.mp hc).2
        simp at this; omega
    · have hb : lo + bs.length ≤ a := by omega
      rw [read_append_of_no_key, read_filter (by simpa using hb)]
      intro c hc
      rcases List.mem_append.mp hc with hc | hc
      · have := (List.mem_filter.mp hc).2
        simp at this; omega
      · have := hmid c hc; omega

theorem read_store_inside {m : Memory} {lo : Nat} {bs : List Byte} {i : Nat} (h : i < bs.length) :
    (m.store lo bs).read (lo + i) = bs.getD i 0 := by
  rw [read_store, if_pos ⟨by omega, by omega⟩, Nat.add_sub_cancel_left]

theorem read_store_outside {m : Memory} {lo : Nat} {bs : List Byte} {a : Nat}
    (h : a < lo ∨ lo + bs.length ≤ a) : (m.store lo bs).read a = m.read a := by
  rw [read_store, if_neg (by omega)]

@[simp] theorem load_length (m : Memory) (lo n : Nat) : (m.load lo n).length = n := by
  induction n generalizing lo with
  | zero => rfl
  | succ n ih => simp [Memory.load, ih]

theorem load_getD {m : Memory} {lo n i : Nat} (h : i < n) : (m.load lo n).getD i 0 = m.read (lo + i) := by
  induction n generalizing lo i with
  | zero => omega
  | succ n ih =>
    cases i with
    | zero => simp [Memory.load]
    | succ i => simp only [Memory.load, List.getD_cons_succ]; rw [ih (by omega)]; congr 1; omega

theorem load_getElem {m : Memory} {lo n i : Nat} (h : i < (m.load lo n).length) :
    (m.load lo n)[i] = m.read (lo + i) := by
  have hn : i < n := by simpa using h
  rw [← load_getD hn, List.getD_eq_getElem _ _ h]

/-- Two memories that read alike over a range load alike there. -/
theorem load_congr {m n : Memory} {lo k : Nat} (h : ∀ i, i < k → m.read (lo + i) = n.read (lo + i)) :
    m.load lo k = n.load lo k := by
  apply List.ext_getElem (by simp)
  intro i h1 h2
  rw [load_getElem, load_getElem, h i (by simpa using h1)]

theorem load_eq_of_reads {m : Memory} {lo : Nat} {bs : List Byte}
    (h : ∀ i, i < bs.length → m.read (lo + i) = bs.getD i 0) : m.load lo bs.length = bs := by
  apply List.ext_getElem (by simp)
  intro i h1 h2
  rw [load_getElem, h i h2, List.getD_eq_getElem _ _ h2]

/-- The stored bytes load back. -/
theorem load_store_same (m : Memory) (lo : Nat) (bs : List Byte) : (m.store lo bs).load lo bs.length = bs :=
  load_eq_of_reads fun _ h => read_store_inside h

/-- A load beside the stored bytes is unchanged. -/
theorem load_store_beside {m : Memory} {lo : Nat} {bs : List Byte} {lo' n : Nat}
    (h : lo' + n ≤ lo ∨ lo + bs.length ≤ lo') : (m.store lo bs).load lo' n = m.load lo' n :=
  load_congr fun _ _ => read_store_outside (by omega)

theorem load_append (m : Memory) (lo n k : Nat) : m.load lo (n + k) = m.load lo n ++ m.load (lo + n) k := by
  induction n generalizing lo with
  | zero => simp [Memory.load]
  | succ n ih =>
    rw [Nat.succ_add, Memory.load, Memory.load, ih, List.cons_append, Nat.add_assoc, Nat.add_comm 1 n]

/-- Part of a load is a load of the part. -/
theorem load_take {m : Memory} {lo n k : Nat} (h : k ≤ n) : (m.load lo n).take k = m.load lo k := by
  obtain ⟨j, rfl⟩ := Nat.exists_eq_add_of_le h
  rw [load_append, List.take_left' (by simp)]

/-! ### The canonical form -/

theorem wfFrom_mono {lo lo' : Nat} {m : Memory} (h : lo' ≤ lo) (hm : wfFrom lo m = true) : wfFrom lo' m = true := by
  cases m with
  | nil => rfl
  | cons c m =>
    obtain ⟨k, b⟩ := c
    simp only [wfFrom, Bool.and_eq_true, decide_eq_true_eq] at hm ⊢
    exact ⟨⟨by omega, hm.1.2⟩, hm.2⟩

theorem wfFrom_keys {lo : Nat} {m : Memory} (h : wfFrom lo m = true) : ∀ c ∈ m, lo ≤ c.1 ∧ c.2 ≠ 0 := by
  induction m generalizing lo with
  | nil => simp
  | cons c m ih =>
    obtain ⟨k, b⟩ := c
    simp only [wfFrom, Bool.and_eq_true, decide_eq_true_eq] at h
    intro c hc
    rcases List.mem_cons.mp hc with rfl | hc
    · exact h.1
    · have := ih h.2 c hc; exact ⟨by omega, this.2⟩

theorem wfFrom_filter {lo : Nat} {m : Memory} (p : Host.Cell → Bool) (h : wfFrom lo m = true) :
    wfFrom lo (m.filter p) = true := by
  induction m generalizing lo with
  | nil => rfl
  | cons c m ih =>
    obtain ⟨k, b⟩ := c
    simp only [wfFrom, Bool.and_eq_true, decide_eq_true_eq] at h
    by_cases hp : p (k, b) = true
    · simp only [List.filter_cons, hp, if_true, wfFrom, Bool.and_eq_true, decide_eq_true_eq]
      exact ⟨h.1, ih h.2⟩
    · simp only [List.filter_cons, hp]
      exact wfFrom_mono (by omega) (ih h.2)

/-- A canonical list below a bound, then a canonical list from it on. -/
theorem wfFrom_append {lo hi : Nat} {m n : Memory} (hm : wfFrom lo m = true) (hlt : ∀ c ∈ m, c.1 < hi)
    (hn : wfFrom hi n = true) (hle : lo ≤ hi) : wfFrom lo (m ++ n) = true := by
  induction m generalizing lo with
  | nil => exact wfFrom_mono hle hn
  | cons c m ih =>
    obtain ⟨k, b⟩ := c
    simp only [wfFrom, Bool.and_eq_true, decide_eq_true_eq] at hm
    have hk : k < hi := hlt (k, b) (by simp)
    simp only [List.cons_append, wfFrom, Bool.and_eq_true, decide_eq_true_eq]
    exact ⟨hm.1, ih hm.2 (fun c hc => hlt c (by simp [hc])) (by omega)⟩

theorem wfFrom_cellsAt (lo : Nat) (bs : List Byte) : wfFrom lo (cellsAt lo bs) = true := by
  induction bs generalizing lo with
  | nil => rfl
  | cons b bs ih =>
    by_cases hb : b = 0
    · rw [hb, cellsAt_cons_zero]; exact wfFrom_mono (by omega) (ih (lo + 1))
    · simp only [cellsAt_cons_ne _ _ hb, wfFrom, Bool.and_eq_true, decide_eq_true_eq]
      exact ⟨⟨Nat.le_refl _, hb⟩, ih (lo + 1)⟩

theorem wfFrom_filter_ge {hi : Nat} {lo : Nat} {m : Memory} (h : wfFrom lo m = true) :
    wfFrom hi (m.filter fun c => decide (hi ≤ c.1)) = true := by
  induction m generalizing lo with
  | nil => rfl
  | cons c m ih =>
    obtain ⟨k, b⟩ := c
    simp only [wfFrom, Bool.and_eq_true, decide_eq_true_eq] at h
    by_cases hk : hi ≤ k
    · simp only [List.filter_cons, hk, decide_true, if_true, wfFrom, Bool.and_eq_true, decide_eq_true_eq]
      exact ⟨⟨trivial, h.1.2⟩, wfFrom_filter _ h.2⟩
    · simpa [List.filter_cons, hk] using ih h.2

/-- A store keeps the canonical form. -/
theorem store_wf {m : Memory} (h : m.wf = true) (lo : Nat) (bs : List Byte) : (m.store lo bs).wf = true := by
  have h0 : wfFrom 0 m = true := h
  have hmid : ∀ c ∈ cellsAt lo bs, c.1 < lo + bs.length := fun c hc => (cellsAt_key c hc).2
  rw [Memory.wf, Memory.store, List.append_assoc]
  refine wfFrom_append (hi := lo) (wfFrom_filter _ h0) ?_ ?_ (by omega)
  · intro c hc; simpa using (List.mem_filter.mp hc).2
  · exact wfFrom_append (wfFrom_cellsAt lo bs) hmid (wfFrom_filter_ge h0) (by omega)

theorem wfFrom_ext {lo : Nat} {m n : Memory} (hm : wfFrom lo m = true) (hn : wfFrom lo n = true)
    (h : ∀ a, m.read a = n.read a) : m = n := by
  induction m generalizing lo n with
  | nil =>
    cases n with
    | nil => rfl
    | cons d n =>
      obtain ⟨l, e⟩ := d
      have := wfFrom_keys hn (l, e) (by simp)
      have hl := h l
      simp [Memory.read] at hl
      exact absurd hl.symm this.2
  | cons c m ih =>
    obtain ⟨k, b⟩ := c
    simp only [wfFrom, Bool.and_eq_true, decide_eq_true_eq] at hm
    have hgt : ∀ {j : Nat} {q : Memory}, wfFrom (j + 1) q = true → q.read j = 0 := fun hq =>
      read_of_no_key fun c hc => by have := (wfFrom_keys hq c hc).1; omega
    cases n with
    | nil =>
      have hk := h k
      simp [Memory.read] at hk
      exact absurd hk hm.1.2
    | cons d n =>
      obtain ⟨l, e⟩ := d
      simp only [wfFrom, Bool.and_eq_true, decide_eq_true_eq] at hn
      have hkl : k = l := by
        rcases Nat.lt_trichotomy k l with hlt | heq | hlt
        · have hk := h k
          simp only [Memory.read, if_true, if_neg (Nat.ne_of_gt hlt)] at hk
          rw [hgt (wfFrom_mono (by omega) hn.2)] at hk
          exact absurd hk hm.1.2
        · exact heq
        · have hl := h l
          simp only [Memory.read, if_true, if_neg (Nat.ne_of_gt hlt)] at hl
          rw [hgt (wfFrom_mono (by omega) hm.2)] at hl
          exact absurd hl.symm hn.1.2
      subst hkl
      have hbe : b = e := by simpa [Memory.read] using h k
      subst hbe
      refine congrArg _ (ih hm.2 hn.2 fun a => ?_)
      by_cases ha : k = a
      · subst ha; rw [hgt hm.2, hgt hn.2]
      · simpa [Memory.read, ha] using h a

/-- Canonical memories with equal contents are equal. -/
theorem memory_ext {m n : Memory} (hm : m.wf = true) (hn : n.wf = true) (h : ∀ a, m.read a = n.read a) : m = n :=
  wfFrom_ext hm hn h

end Sys2Proof.Machine
end

