-- ==== Sys2Proof/Laws/State.lean ====
section
/-! SUPPORT. What each named update of the state writes, one lemma per field it leaves alone or sets, and the shared
outcomes: `succeed`, `reject`, `putAcc`, `buildFrame`. -/

namespace Sys2Proof.Machine


/-! ### endEvent -/

@[simp] theorem endEvent_cmd (s : State) (rest : List HostEvent) (d : Option Word) : (endEvent s rest d).cmd = s.cmd := rfl
@[simp] theorem endEvent_arg0 (s : State) (rest : List HostEvent) (d : Option Word) : (endEvent s rest d).arg0 = s.arg0 := rfl
@[simp] theorem endEvent_arg1 (s : State) (rest : List HostEvent) (d : Option Word) : (endEvent s rest d).arg1 = s.arg1 := rfl
@[simp] theorem endEvent_acc (s : State) (rest : List HostEvent) (d : Option Word) : (endEvent s rest d).acc = s.acc := rfl
@[simp] theorem endEvent_operr (s : State) (rest : List HostEvent) (d : Option Word) : (endEvent s rest d).operr = s.operr := rfl
@[simp] theorem endEvent_devent (s : State) (rest : List HostEvent) (d : Option Word) : (endEvent s rest d).devent = s.devent := rfl
@[simp] theorem endEvent_dstate (s : State) (rest : List HostEvent) (d : Option Word) : (endEvent s rest d).dstate = s.dstate := rfl
@[simp] theorem endEvent_fcrc (s : State) (rest : List HostEvent) (d : Option Word) : (endEvent s rest d).fcrc = s.fcrc := rfl
@[simp] theorem endEvent_olen (s : State) (rest : List HostEvent) (d : Option Word) : (endEvent s rest d).olen = s.olen := rfl
@[simp] theorem endEvent_dtype (s : State) (rest : List HostEvent) (d : Option Word) : (endEvent s rest d).dtype = s.dtype := rfl
@[simp] theorem endEvent_dlen (s : State) (rest : List HostEvent) (d : Option Word) : (endEvent s rest d).dlen = s.dlen := rfl
@[simp] theorem endEvent_dcrc (s : State) (rest : List HostEvent) (d : Option Word) : (endEvent s rest d).dcrc = s.dcrc := rfl
@[simp] theorem endEvent_dcalc (s : State) (rest : List HostEvent) (d : Option Word) : (endEvent s rest d).dcalc = s.dcalc := rfl
@[simp] theorem endEvent_dcnt (s : State) (rest : List HostEvent) (d : Option Word) : (endEvent s rest d).dcnt = s.dcnt := rfl
@[simp] theorem endEvent_mem (s : State) (rest : List HostEvent) (d : Option Word) : (endEvent s rest d).mem = s.mem := rfl
@[simp] theorem endEvent_pending (s : State) (rest : List HostEvent) (d : Option Word) : (endEvent s rest d).pending = rest := rfl
@[simp] theorem endEvent_readData (s : State) (rest : List HostEvent) (d : Option Word) : (endEvent s rest d).readData = d := rfl

/-! ### clearDecoder -/

@[simp] theorem clearDecoder_cmd (s : State) : (clearDecoder s).cmd = s.cmd := rfl
@[simp] theorem clearDecoder_arg0 (s : State) : (clearDecoder s).arg0 = s.arg0 := rfl
@[simp] theorem clearDecoder_arg1 (s : State) : (clearDecoder s).arg1 = s.arg1 := rfl
@[simp] theorem clearDecoder_acc (s : State) : (clearDecoder s).acc = s.acc := rfl
@[simp] theorem clearDecoder_operr (s : State) : (clearDecoder s).operr = s.operr := rfl
@[simp] theorem clearDecoder_devent (s : State) : (clearDecoder s).devent = s.devent := rfl
@[simp] theorem clearDecoder_dstate (s : State) : (clearDecoder s).dstate = s.dstate := rfl
@[simp] theorem clearDecoder_fcrc (s : State) : (clearDecoder s).fcrc = s.fcrc := rfl
@[simp] theorem clearDecoder_olen (s : State) : (clearDecoder s).olen = s.olen := rfl
@[simp] theorem clearDecoder_dtype (s : State) : (clearDecoder s).dtype = 0 := rfl
@[simp] theorem clearDecoder_dlen (s : State) : (clearDecoder s).dlen = 0 := rfl
@[simp] theorem clearDecoder_dcrc (s : State) : (clearDecoder s).dcrc = 0 := rfl
@[simp] theorem clearDecoder_dcalc (s : State) : (clearDecoder s).dcalc = 0 := rfl
@[simp] theorem clearDecoder_dcnt (s : State) : (clearDecoder s).dcnt = 0 := rfl
@[simp] theorem clearDecoder_mem (s : State) : (clearDecoder s).mem = s.mem.store dbufBase (zeros Config.dbufSize) := rfl
@[simp] theorem clearDecoder_pending (s : State) : (clearDecoder s).pending = s.pending := rfl
@[simp] theorem clearDecoder_readData (s : State) : (clearDecoder s).readData = s.readData := rfl

/-! ### derr -/

@[simp] theorem derr_cmd (code : DEvent) (s : State) : (derr code s).cmd = s.cmd := rfl
@[simp] theorem derr_arg0 (code : DEvent) (s : State) : (derr code s).arg0 = s.arg0 := rfl
@[simp] theorem derr_arg1 (code : DEvent) (s : State) : (derr code s).arg1 = s.arg1 := rfl
@[simp] theorem derr_acc (code : DEvent) (s : State) : (derr code s).acc = s.acc := rfl
@[simp] theorem derr_operr (code : DEvent) (s : State) : (derr code s).operr = s.operr := rfl
@[simp] theorem derr_devent (code : DEvent) (s : State) : (derr code s).devent = code := rfl
@[simp] theorem derr_dstate (code : DEvent) (s : State) : (derr code s).dstate = .hunt := rfl
@[simp] theorem derr_fcrc (code : DEvent) (s : State) : (derr code s).fcrc = s.fcrc := rfl
@[simp] theorem derr_olen (code : DEvent) (s : State) : (derr code s).olen = s.olen := rfl
@[simp] theorem derr_dtype (code : DEvent) (s : State) : (derr code s).dtype = s.dtype := rfl
@[simp] theorem derr_dlen (code : DEvent) (s : State) : (derr code s).dlen = s.dlen := rfl
@[simp] theorem derr_dcrc (code : DEvent) (s : State) : (derr code s).dcrc = s.dcrc := rfl
@[simp] theorem derr_dcalc (code : DEvent) (s : State) : (derr code s).dcalc = s.dcalc := rfl
@[simp] theorem derr_dcnt (code : DEvent) (s : State) : (derr code s).dcnt = s.dcnt := rfl
@[simp] theorem derr_mem (code : DEvent) (s : State) : (derr code s).mem = s.mem := rfl
@[simp] theorem derr_pending (code : DEvent) (s : State) : (derr code s).pending = s.pending := rfl
@[simp] theorem derr_readData (code : DEvent) (s : State) : (derr code s).readData = s.readData := rfl

/-! ### putFrame -/

@[simp] theorem putFrame_cmd (f : List Byte) (c : Word) (s : State) : (putFrame f c s).cmd = s.cmd := rfl
@[simp] theorem putFrame_arg0 (f : List Byte) (c : Word) (s : State) : (putFrame f c s).arg0 = s.arg0 := rfl
@[simp] theorem putFrame_arg1 (f : List Byte) (c : Word) (s : State) : (putFrame f c s).arg1 = s.arg1 := rfl
@[simp] theorem putFrame_acc (f : List Byte) (c : Word) (s : State) : (putFrame f c s).acc = s.acc := rfl
@[simp] theorem putFrame_operr (f : List Byte) (c : Word) (s : State) : (putFrame f c s).operr = s.operr := rfl
@[simp] theorem putFrame_devent (f : List Byte) (c : Word) (s : State) : (putFrame f c s).devent = s.devent := rfl
@[simp] theorem putFrame_dstate (f : List Byte) (c : Word) (s : State) : (putFrame f c s).dstate = s.dstate := rfl
@[simp] theorem putFrame_fcrc (f : List Byte) (c : Word) (s : State) : (putFrame f c s).fcrc = c := rfl
@[simp] theorem putFrame_olen (f : List Byte) (c : Word) (s : State) : (putFrame f c s).olen = BitVec.ofNat 32 f.length := rfl
@[simp] theorem putFrame_dtype (f : List Byte) (c : Word) (s : State) : (putFrame f c s).dtype = s.dtype := rfl
@[simp] theorem putFrame_dlen (f : List Byte) (c : Word) (s : State) : (putFrame f c s).dlen = s.dlen := rfl
@[simp] theorem putFrame_dcrc (f : List Byte) (c : Word) (s : State) : (putFrame f c s).dcrc = s.dcrc := rfl
@[simp] theorem putFrame_dcalc (f : List Byte) (c : Word) (s : State) : (putFrame f c s).dcalc = s.dcalc := rfl
@[simp] theorem putFrame_dcnt (f : List Byte) (c : Word) (s : State) : (putFrame f c s).dcnt = s.dcnt := rfl
@[simp] theorem putFrame_mem (f : List Byte) (c : Word) (s : State) : (putFrame f c s).mem = s.mem.store obufBase (f ++ zeros (Config.obufSize - f.length)) := rfl
@[simp] theorem putFrame_pending (f : List Byte) (c : Word) (s : State) : (putFrame f c s).pending = s.pending := rfl
@[simp] theorem putFrame_readData (f : List Byte) (c : Word) (s : State) : (putFrame f c s).readData = s.readData := rfl

/-! ### The shared outcomes -/

theorem succeed_eq (s : State) : succeed s = .next { s with operr := .ok } := rfl

theorem reject_eq (code : OpErr) (s : State) : reject code s = .next { s with operr := code } := rfl

theorem putAcc_eq (v : Word) (s : State) : putAcc v s = .next { s with acc := v, operr := .ok } := rfl

theorem buildFrame_eq (t : Byte) (p : List Byte) (c : Word) (s : State) :
    buildFrame t p c s = .next { putFrame (frame t p c) c s with operr := .ok } := rfl

theorem withCount_of_mem {lo n : Nat} {s : State} {k : Outcome} (h : lo ≤ n ∧ n ≤ 256) : withCount lo n s k = k := by
  rw [withCount, if_neg (by omega)]

theorem withCount_of_not_mem {lo n : Nat} {s : State} {k : Outcome} (h : n < lo ∨ 256 < n) :
    withCount lo n s k = .next { s with operr := .errLength } := by
  rw [withCount, if_pos h, reject_eq]

/-- What a count check can do: the count is in range and the command's own effect is the outcome, or only OPERR
changes. -/
theorem withCount_cases (lo n : Nat) (s : State) (k : Outcome) :
    (lo ≤ n ∧ n ≤ 256 ∧ withCount lo n s k = k) ∨
      ((n < lo ∨ 256 < n) ∧ withCount lo n s k = .next { s with operr := .errLength }) := by
  by_cases h : n < lo ∨ 256 < n
  · exact .inr ⟨h, withCount_of_not_mem h⟩
  · exact .inl ⟨by omega, by omega, withCount_of_mem (by omega)⟩

end Sys2Proof.Machine
end

