-- ==== Sys2Proof/Laws/Bus.lean ====
section
/-! SUPPORT. The register window: which row an offset has, what the access checks can answer, what a checked access
and a step can do. -/

namespace Sys2Proof.Machine

theorem regionAt_beyond {off : Nat} (h : 0x500 ≤ off) : regionAt off = none := by
  simp only [regionAt, List.find?_eq_none]
  intro r hr
  have : ∀ r ∈ windowMap, r.base + r.size ≤ 0x500 := by decide
  have := this r hr
  simp; omega

theorem regionAt_unmapped_below : ∀ off < 0x500,
    (0x02C ≤ off ∧ off < 0x100) ∨ (0x30C ≤ off ∧ off < 0x400) → regionAt off = none := by decide +kernel

/-- Every row of the map: its bounds, and what it allows. -/
theorem regionAt_bounds {off : Nat} {r : Region} (h : regionAt off = some r) :
    r ∈ windowMap ∧ r.base ≤ off ∧ off < r.base + r.size := by
  have hm := List.mem_of_find?_eq_some h
  have hp := List.find?_some h
  simp at hp
  exact ⟨hm, hp⟩

theorem regionAt_ibuf : ∀ off < 0x500, 0x100 ≤ off → off < 0x200 →
    regionAt off = some (bufferRow .ibuf ibufBase Config.ibufSize true) := by decide +kernel

theorem regionAt_obuf : ∀ off < 0x500, 0x200 ≤ off → off < 0x30A →
    regionAt off = some (bufferRow .obuf obufBase Config.obufSize false) := by decide +kernel

theorem regionAt_obufPad : ∀ off < 0x500, 0x30A ≤ off → off < 0x30C →
    regionAt off = some (bufferRow .obufPad 0x30A 2 false) := by decide +kernel

theorem regionAt_dbuf : ∀ off < 0x500, 0x400 ≤ off →
    regionAt off = some (bufferRow .dbuf dbufBase Config.dbufSize false) := by decide +kernel

/-- A register offset has a 4-byte row that allows 32-bit accesses only. -/
theorem regionAt_register : ∀ off < 0x02C, ∃ r, regionAt off = some r ∧ r.widths = [4] ∧ r.base = off - off % 4 := by
  have h : ∀ off < 0x02C, (regionAt off).any (fun r => r.widths == [4] && r.base == off - off % 4) = true := by
    decide +kernel
  intro off ho
  specialize h off ho
  cases hr : regionAt off with
  | none => simp [hr] at h
  | some r => exact ⟨r, rfl, by simpa [hr] using h⟩

/-- What the checks of R52 can answer, in their order. -/
theorem busCheck_ok {off n : Nat} {wr : Bool} {r : Region} (h : busCheck off n wr = .ok r) :
    regionAt off = some r ∧ n ∈ r.widths ∧ (n = 4 → off % 4 = 0) ∧ (wr = true → r.writable = true) := by
  unfold busCheck at h
  split at h
  · cases h
  · next r' hr =>
    split at h
    · cases h
    split at h
    · cases h
    split at h
    · cases h
    · next h1 h2 h3 =>
      cases h
      simp at h1 h3
      exact ⟨hr, h1, fun hn => by omega, h3⟩

theorem busCheck_of_ok {off n : Nat} {wr : Bool} {r : Region} (hr : regionAt off = some r) (hn : n ∈ r.widths)
    (ha : n = 4 → off % 4 = 0) (hw : wr = true → r.writable = true) : busCheck off n wr = .ok r := by
  have h2 : ¬ (n = 4 ∧ off % 4 ≠ 0) := by omega
  cases wr <;> simp_all [busCheck]

/-- What a step can do when it answers a next state: wait, reset, read, store, or run the word written to CMD. -/
theorem step_cases {s t : State} (h : step s = .next t) :
    (s.pending = [] ∧ t = s) ∨
    (∃ rest, s.pending = .reset :: rest ∧ t = resetEvent rest) ∨
    (∃ off n rest r, s.pending = .read off n :: rest ∧ busCheck off n false = .ok r ∧
      t = endEvent s rest (some (locRead s r.loc off n))) ∨
    (∃ off n v rest r, s.pending = .write off n v :: rest ∧ busCheck off n true = .ok r ∧ r.loc ≠ .cmd ∧
      t = locWrite (endEvent s rest none) r.loc off n v) ∨
    (∃ off n v rest r, s.pending = .write off n v :: rest ∧ busCheck off n true = .ok r ∧ r.loc = .cmd ∧
      issue v { endEvent s rest none with cmd := v } = .next t) := by
  unfold step at h
  split at h
  · next hp => cases h; exact .inl ⟨hp, rfl⟩
  · next e rest hp =>
    unfold takeEvent at h
    split at h
    · cases h; exact .inr (.inl ⟨rest, hp, rfl⟩)
    · next off n =>
      simp only [memRead] at h
      split at h
      · next v hv =>
        split at hv
        · cases hv
        · next r hr => cases hv; cases h; exact .inr (.inr (.inl ⟨off, n, rest, r, hp, hr, rfl⟩))
      · cases h
    · next off n v =>
      simp only [memWrite] at h
      split at h
      · next t' ht =>
        split at ht
        · cases ht
        · next r hr =>
          split at ht
          · cases ht
          · next hl => cases ht; cases h; exact .inr (.inr (.inr (.inl ⟨off, n, v, rest, r, hp, hr, hl, rfl⟩)))
      · next w t' ht =>
        split at ht
        · cases ht
        · next r hr =>
          split at ht
          · next hl =>
            cases ht
            refine .inr (.inr (.inr (.inr ⟨off, n, v, rest, r, hp, hr, hl, ?_⟩)))
            rw [hl] at h
            exact h
          · cases ht
      · cases h

end Sys2Proof.Machine
end

