-- ==== Sys2Proof/Laws/Decoder.lean ====
section
/-! SUPPORT. The transitions of DEC_BYTE, one lemma per branch, the memory effects of the decoder and the encoder read
one byte at a time, and the legal lengths as a proposition. -/

namespace Sys2Proof.Machine

/-! ### One lemma per state, and one per branch of a transition -/

theorem decTransition_hunt {b : Byte} {s : State} (h : s.dstate = .hunt) :
    decTransition b s = decHunt b s := by rw [decTransition, h]

theorem decTransition_typ {b : Byte} {s : State} (h : s.dstate = .typ) :
    decTransition b s = decType b s := by rw [decTransition, h]

theorem decTransition_lenLo {b : Byte} {s : State} (h : s.dstate = .lenLo) :
    decTransition b s = decLenLo b s := by rw [decTransition, h]

theorem decTransition_lenHi {b : Byte} {s : State} (h : s.dstate = .lenHi) :
    decTransition b s = decLenHi b s := by rw [decTransition, h]

theorem decTransition_payload {b : Byte} {s : State} (h : s.dstate = .payload) :
    decTransition b s = decPayload b s := by rw [decTransition, h]

theorem decTransition_crc0 {b : Byte} {s : State} (h : s.dstate = .crc0) :
    decTransition b s = decCrcByte 0 .crc1 b s := by rw [decTransition, h]

theorem decTransition_crc1 {b : Byte} {s : State} (h : s.dstate = .crc1) :
    decTransition b s = decCrcByte 1 .crc2 b s := by rw [decTransition, h]

theorem decTransition_crc2 {b : Byte} {s : State} (h : s.dstate = .crc2) :
    decTransition b s = decCrcByte 2 .crc3 b s := by rw [decTransition, h]

theorem decTransition_crc3 {b : Byte} {s : State} (h : s.dstate = .crc3) :
    decTransition b s = decCrc3 b s := by rw [decTransition, h]

theorem decTransition_cr {b : Byte} {s : State} (h : s.dstate = .cr) :
    decTransition b s = decCr b s := by rw [decTransition, h]

theorem decTransition_lf {b : Byte} {s : State} (h : s.dstate = .lf) :
    decTransition b s = decLf b s := by rw [decTransition, h]

theorem decHunt_sof (s : State) :
    decHunt 0x24 s = { clearDecoder s with devent := .noEvent, dstate := .typ } := if_pos rfl

theorem decHunt_noise {b : Byte} (s : State) (h : b ≠ 0x24) : decHunt b s = s := if_neg h

theorem decType_known {b : Byte} (s : State) (h : b.toNat ≤ 3) :
    decType b s = { s with dtype := b, dstate := .lenLo } := if_pos h

theorem decType_response (s : State) : decType 4 s = derr .reservedType { s with dtype := 4 } := rfl

theorem decType_unknown {b : Byte} (s : State) (h : 5 ≤ b.toNat) :
    decType b s = derr .badType { s with dtype := b } := by
  have h4 : b ≠ typeResponse := by rintro rfl; exact absurd h (by decide)
  rw [decType, if_neg (by omega), if_neg h4]

theorem decLenHi_legal {b : Byte} {s : State} (h : legalLength s.dtype (dlenWithHi b s).toNat = true) :
    decLenHi b s = { s with dlen := dlenWithHi b s, dstate := .payload } := if_pos h

theorem decLenHi_illegal {b : Byte} {s : State} (h : legalLength s.dtype (dlenWithHi b s).toNat = false) :
    decLenHi b s = derr .badLength { s with dlen := dlenWithHi b s } := if_neg (by simp [h])

theorem decPayload_last {b : Byte} {s : State} (h : (s.dcnt + 1).toNat = s.dlen.toNat) :
    decPayload b s =
      { s with mem := putDbuf s.mem s.dcnt.toNat b, dcnt := s.dcnt + 1, dstate := .crc0 } := by
  rw [decPayload, if_pos h]

theorem decPayload_more {b : Byte} {s : State} (h : (s.dcnt + 1).toNat ≠ s.dlen.toNat) :
    decPayload b s =
      { s with mem := putDbuf s.mem s.dcnt.toNat b, dcnt := s.dcnt + 1, dstate := .payload } := by
  rw [decPayload, if_neg h]

theorem decCrc3_agrees {b : Byte} {s : State} (h : computedCrc s = dcrcWith 3 b s) :
    decCrc3 b s = { s with dcrc := dcrcWith 3 b s, dcalc := computedCrc s, dstate := .cr } := if_pos h

theorem decCrc3_differs {b : Byte} {s : State} (h : computedCrc s ≠ dcrcWith 3 b s) :
    decCrc3 b s = derr .badCrc { s with dcrc := dcrcWith 3 b s, dcalc := computedCrc s } := if_neg h

theorem decCr_term (s : State) : decCr 0x0D s = { s with dstate := .lf } := if_pos rfl

theorem decCr_other {b : Byte} (s : State) (h : b ≠ 0x0D) : decCr b s = derr .badCr s := if_neg h

theorem decLf_term (s : State) : decLf 0x0A s = { s with devent := .frameOk, dstate := .hunt } := if_pos rfl

theorem decLf_other {b : Byte} (s : State) (h : b ≠ 0x0A) : decLf b s = derr .badLf s := if_neg h

/-! ### Legal lengths and the type's CRC -/

theorem legalLength_iff (t : Byte) (l : Nat) :
    legalLength t l = true ↔
      (t = 0 ∧ l = 1) ∨ (t = 1 ∧ 1 ≤ l ∧ l ≤ 256) ∨ (t = 2 ∧ l = 16) ∨ (t = 3 ∧ l = 4) := by
  unfold legalLength typeCommand typeData typeHeader typeBulkHeader Config.maxDataPayload
  by_cases h0 : t = 0
  · subst h0; simp
  by_cases h1 : t = 1
  · subst h1; simp
  by_cases h2 : t = 2
  · subst h2; simp
  by_cases h3 : t = 3
  · subst h3; simp
  · simp only [if_neg h0, if_neg h1, if_neg h2, if_neg h3]
    tauto

theorem legalLength_bounds {t : Byte} {l : Nat} (h : legalLength t l = true) : 1 ≤ l ∧ l ≤ 256 ∧ t.toNat ≤ 3 := by
  rcases (legalLength_iff t l).mp h with ⟨rfl, rfl⟩ | ⟨rfl, h⟩ | ⟨rfl, rfl⟩ | ⟨rfl, rfl⟩ <;>
    simp_all

@[simp] theorem typeCrc_command (p : List Byte) : typeCrc 0#8 p = crcCommand (byteAt p 0) := if_pos rfl

@[simp] theorem typeCrc_data (p : List Byte) : typeCrc 1#8 p = crcFixedDatapack p := by
  rw [typeCrc, if_neg (by decide), if_pos (by decide)]

@[simp] theorem typeCrc_header (p : List Byte) : typeCrc 2#8 p = crcFixed16 p := by
  rw [typeCrc, if_neg (by decide), if_neg (by decide), if_pos (by decide)]

@[simp] theorem typeCrc_bulkHeader (p : List Byte) : typeCrc 3#8 p = crcFixed16 p := by
  rw [typeCrc, if_neg (by decide), if_neg (by decide), if_pos (by decide)]

/-! ### The bytes the shared operations store -/

theorem clearDecoder_read (s : State) (a : Nat) :
    (clearDecoder s).mem.read a = if 0x400 ≤ a ∧ a < 0x500 then 0 else s.mem.read a := by
  rw [clearDecoder_mem, read_store, zeros_length, zeros_getD]; rfl

theorem putFrame_read {f : List Byte} (h : f.length ≤ 266) (c : Word) (s : State) (a : Nat) :
    (putFrame f c s).mem.read a = if 0x200 ≤ a ∧ a < 0x30A then f.getD (a - 0x200) 0 else s.mem.read a := by
  have hl : (f ++ zeros (Config.obufSize - f.length)).length = 266 := by
    simp only [List.length_append, zeros_length, Config.obufSize, Config.maxDataPayload, Config.frameOverhead]; omega
  rw [putFrame_mem, read_store, hl, show obufBase = 0x200 from rfl]
  congr 1
  by_cases ha : a - 0x200 < f.length
  · rw [List.getD_append _ _ _ _ ha]
  · rw [List.getD_append_right _ _ _ _ (by omega), zeros_getD, List.getD_eq_default _ _ (by omega)]

theorem putDbuf_read {i : Nat} (h : i < 256) (m : Memory) (b : Byte) (a : Nat) :
    (putDbuf m i b).read a = if a = 0x400 + i then b else m.read a := by
  rw [putDbuf, if_pos (show i < Config.dbufSize from h), read_store, show dbufBase = 0x400 from rfl]
  by_cases ha : a = 0x400 + i
  · subst ha; simp
  · rw [if_neg (by simp; omega), if_neg ha]

theorem putDbuf_wf {m : Memory} (h : m.wf = true) (i : Nat) (b : Byte) : (putDbuf m i b).wf = true := by
  unfold putDbuf
  split
  · exact store_wf h _ _
  · exact h

theorem putDbuf_read_outside (m : Memory) (i : Nat) (b : Byte) {a : Nat} (h : a < 0x400 ∨ 0x500 ≤ a) :
    (putDbuf m i b).read a = m.read a := by
  by_cases hi : i < 256
  · rw [putDbuf_read hi, if_neg (by omega)]
  · rw [putDbuf, if_neg (show ¬ i < Config.dbufSize from hi)]

theorem clearDecoder_wf {s : State} (h : s.mem.wf = true) : (clearDecoder s).mem.wf = true := store_wf h _ _

theorem putFrame_wf {s : State} (h : s.mem.wf = true) (f : List Byte) (c : Word) : (putFrame f c s).mem.wf = true :=
  store_wf h _ _

/-- DEC_BYTE writes the decoder's fields, OPERR and DBUF only. -/
theorem decTransition_frame (b : Byte) (s : State) :
    (decTransition b s).cmd = s.cmd ∧ (decTransition b s).arg0 = s.arg0 ∧ (decTransition b s).arg1 = s.arg1 ∧
      (decTransition b s).acc = s.acc ∧ (decTransition b s).fcrc = s.fcrc ∧ (decTransition b s).olen = s.olen ∧
      (decTransition b s).pending = s.pending ∧ (decTransition b s).readData = s.readData ∧
      ∀ a, a < 0x400 ∨ 0x500 ≤ a → (decTransition b s).mem.read a = s.mem.read a := by
  unfold decTransition
  split
  · unfold decHunt
    split
    · refine ⟨rfl, rfl, rfl, rfl, rfl, rfl, rfl, rfl, fun a ha => ?_⟩
      exact (clearDecoder_read s a).trans (if_neg (by omega))
    · simp
  · unfold decType; (repeat' split) <;> simp
  · simp [decLenLo]
  · unfold decLenHi; split <;> simp
  · refine ⟨rfl, rfl, rfl, rfl, rfl, rfl, rfl, rfl, fun a ha => putDbuf_read_outside _ _ _ ha⟩
  · simp [decCrcByte]
  · simp [decCrcByte]
  · simp [decCrcByte]
  · unfold decCrc3; split <;> simp
  · unfold decCr; split <;> simp
  · unfold decLf; split <;> simp

theorem decTransition_wf {s : State} (h : s.mem.wf = true) (b : Byte) : (decTransition b s).mem.wf = true := by
  unfold decTransition
  split
  · unfold decHunt
    split
    · exact clearDecoder_wf h
    · exact h
  · unfold decType; (repeat' split) <;> exact h
  · exact h
  · unfold decLenHi; split <;> exact h
  · exact putDbuf_wf h _ _
  · exact h
  · exact h
  · exact h
  · unfold decCrc3; split <;> exact h
  · unfold decCr; split <;> exact h
  · unfold decLf; split <;> exact h

end Sys2Proof.Machine
end

