-- ==== Sys2Proof/Laws/PerInstr.lean ====
section
/-! SUPPORT. The statements made once per command: its row of the opcode map. -/

/-- The opcode map R73 selects the command from its opcode and the operands it carries. -/
def Sys2Proof.Laws.OpcodeMapEntry.Statement (i : Sys2Proof.Instr) : Prop :=
  Sys2Proof.opcodeMap (Sys2Proof.opcodeOf i) (Sys2Proof.byteField i) (Sys2Proof.countField i) = some i

theorem Sys2Proof.Laws.OpcodeMapEntry.crcInit :
    Sys2Proof.Laws.OpcodeMapEntry.Statement .crcInit := rfl

theorem Sys2Proof.Laws.OpcodeMapEntry.crcByte (b : Sys2Proof.Byte) :
    Sys2Proof.Laws.OpcodeMapEntry.Statement (.crcByte b) := rfl

theorem Sys2Proof.Laws.OpcodeMapEntry.crcWord :
    Sys2Proof.Laws.OpcodeMapEntry.Statement .crcWord := rfl

theorem Sys2Proof.Laws.OpcodeMapEntry.crcUpdate (n : Nat) :
    Sys2Proof.Laws.OpcodeMapEntry.Statement (.crcUpdate n) := rfl

theorem Sys2Proof.Laws.OpcodeMapEntry.crcFull (n : Nat) :
    Sys2Proof.Laws.OpcodeMapEntry.Statement (.crcFull n) := rfl

theorem Sys2Proof.Laws.OpcodeMapEntry.crcFixed16 (n : Nat) :
    Sys2Proof.Laws.OpcodeMapEntry.Statement (.crcFixed16 n) := rfl

theorem Sys2Proof.Laws.OpcodeMapEntry.crcDatapack (n : Nat) :
    Sys2Proof.Laws.OpcodeMapEntry.Statement (.crcDatapack n) := rfl

theorem Sys2Proof.Laws.OpcodeMapEntry.crcCommand (b : Sys2Proof.Byte) :
    Sys2Proof.Laws.OpcodeMapEntry.Statement (.crcCommand b) := rfl

theorem Sys2Proof.Laws.OpcodeMapEntry.encCommand (b : Sys2Proof.Byte) :
    Sys2Proof.Laws.OpcodeMapEntry.Statement (.encCommand b) := rfl

theorem Sys2Proof.Laws.OpcodeMapEntry.encData (n : Nat) :
    Sys2Proof.Laws.OpcodeMapEntry.Statement (.encData n) := rfl

theorem Sys2Proof.Laws.OpcodeMapEntry.encHeader :
    Sys2Proof.Laws.OpcodeMapEntry.Statement .encHeader := rfl

theorem Sys2Proof.Laws.OpcodeMapEntry.encBulkHeader :
    Sys2Proof.Laws.OpcodeMapEntry.Statement .encBulkHeader := rfl

theorem Sys2Proof.Laws.OpcodeMapEntry.decReset :
    Sys2Proof.Laws.OpcodeMapEntry.Statement .decReset := rfl

theorem Sys2Proof.Laws.OpcodeMapEntry.decByte (b : Sys2Proof.Byte) :
    Sys2Proof.Laws.OpcodeMapEntry.Statement (.decByte b) := rfl
end

