-- ==== Sys2Proof/Laws/Run.lean ====
section
/-! SUPPORT. Runs: a run cut in two, and one event at a time. -/

namespace Sys2Proof.Machine

@[simp] theorem runSteps_zero (s : State) : runSteps 0 s = .next s := rfl

theorem runSteps_succ {s t : State} {k : Nat} (h : step s = .next t) : runSteps (k + 1) s = runSteps k t := by
  simp [runSteps, h]

/-- A run of `j` steps that ends in `t`, and the rest of the run from `t`. -/
theorem runSteps_add {s t : State} {j : Nat} (k : Nat) (h : runSteps j s = .next t) :
    runSteps (j + k) s = runSteps k t := by
  induction j generalizing s with
  | zero => cases h; rw [Nat.zero_add]
  | succ j ih =>
    rw [Nat.succ_add]
    simp only [runSteps] at h ⊢
    cases hs : step s with
    | next u => rw [hs] at h; exact ih h
    | fault r => rw [hs] at h; cases h
    | refused r => rw [hs] at h; cases h

/-- A host with no event left has run. -/
@[simp] theorem hostRuns_nil (s : State) : hostRuns [] s = .next { s with pending := [] } := rfl

end Sys2Proof.Machine
end

