-- ==== Sys2Proof/Tests/Slice0.lean ====
section
/-! SUPPORT. Tests of the model against values written in the spec (95_test_vectors.md, the examples of the command
rules), the smoke tests of WellFormed, and a witness for the hypotheses of each statement. -/

/- One theorem at a time: the checks run under a memory limit, and each thread reserves its stack. -/
set_option Elab.async false

namespace Sys2Proof.Tests

open Sys2Proof Sys2Proof.Machine

/-! ### Helpers -/

/-- The block after reset with the host events `es` pending. -/
def onBus (es : List HostEvent) : State := { State.reset with pending := es }

/-- The block after reset with `bs` at the start of IBUF. -/
def withIbuf (bs : List Byte) : State := { State.reset with mem := Memory.store [] 0x100 bs }

/-- The block in state `s` with the CMD write of `w` as its next host event, taken in one step. -/
def issued (w : Word) (s : State) : Outcome := step { s with pending := [commandWrite w] }

/-- A value read from the next state, if the outcome is one. -/
def read {α : Type} (f : State → α) : Outcome → Option α
  | .next s => some (f s)
  | .fault _ => none
  | .refused _ => none

/-- ACC and OPERR. -/
def accOperr (s : State) : Word × OpErr := (s.acc, s.operr)

/-- OPERR, FCRC and OBUF[0..OLEN). -/
def encoded (s : State) : OpErr × Word × List Byte := (s.operr, s.fcrc, s.mem.load 0x200 s.olen.toNat)

/-- STATUS, DTYPE, DLEN, DCRC, DCALC. -/
def decoded (s : State) : Word × Byte × BitVec 16 × Word × Word := (statusWord s, s.dtype, s.dlen, s.dcrc, s.dcalc)

/-- What the read of the next state returned. -/
def readAfter (es : List HostEvent) (s : State) : Option (Option Word) := read (·.readData) (hostRuns es s)

/-- The kind of BusError a host event ends with. -/
def busErrorOf (e : HostEvent) : Option BusErrorKind :=
  match step (onBus [e]) with
  | .fault (.busError k) => some k
  | .next _ => none
  | .refused _ => none

/-! ### WellFormed refuses what no command word carries (30_encoding.md R70: N is 9 bits) -/

theorem smoke_crcUpdate_count_too_wide : ¬ WellFormed (.crcUpdate 512) := by decide

theorem smoke_crcFull_count_too_wide : ¬ WellFormed (.crcFull 512) := by decide

theorem smoke_crcFixed16_count_too_wide : ¬ WellFormed (.crcFixed16 512) := by decide

theorem smoke_crcDatapack_count_too_wide : ¬ WellFormed (.crcDatapack 512) := by decide

theorem smoke_encData_count_too_wide : ¬ WellFormed (.encData 512) := by decide

/-! ### Decoding: words written out field by field as RSV, N, B, OP (30_encoding.md R70, R73) -/

theorem test_decode_crcInit :
    decodeWord 0b0000000_000000000_00000000_00000001 = .ok .crcInit := rfl

theorem test_decode_crcByte :
    decodeWord 0b0000000_000000000_00110001_00000010 = .ok (.crcByte 0x31) := rfl

theorem test_decode_crcWord :
    decodeWord 0b0000000_000000000_00000000_00000011 = .ok .crcWord := rfl

theorem test_decode_crcUpdate :
    decodeWord 0b0000000_000001001_00000000_00000100 = .ok (.crcUpdate 9) := rfl

theorem test_decode_crcFull :
    decodeWord 0b0000000_000000100_00000000_00000101 = .ok (.crcFull 4) := rfl

theorem test_decode_crcFixed16 :
    decodeWord 0b0000000_000010001_00000000_00000110 = .ok (.crcFixed16 17) := rfl

theorem test_decode_crcDatapack :
    decodeWord 0b0000000_111111111_00000000_00000111 = .ok (.crcDatapack 511) := rfl

theorem test_decode_crcCommand :
    decodeWord 0b0000000_000000000_11111111_00001000 = .ok (.crcCommand 0xFF) := rfl

/-- N is unused and ignored (95_test_vectors.md section 2.7). -/
theorem test_decode_encCommand :
    decodeWord 0b0000000_111111111_00000000_00010000 = .ok (.encCommand 0) := rfl

theorem test_decode_encData :
    decodeWord 0b0000000_100000000_00000000_00010001 = .ok (.encData 256) := rfl

theorem test_decode_encHeader :
    decodeWord 0b0000000_000000000_00000000_00010010 = .ok .encHeader := rfl

theorem test_decode_encBulkHeader :
    decodeWord 0b0000000_000000000_00000000_00010011 = .ok .encBulkHeader := rfl

theorem test_decode_decReset :
    decodeWord 0b0000000_000000000_00000000_00100000 = .ok .decReset := rfl

theorem test_decode_decByte :
    decodeWord 0b0000000_000000000_00100100_00100001 = .ok (.decByte 0x24) := rfl

/-- RSV is checked before OP (60_exceptions.md R216). -/
theorem test_decode_reserved_first :
    decodeWord 0x02000001 = .error (.reservedBits 1) ∧ decodeWord 0x80000000 = .error (.reservedBits 64) := ⟨rfl, rfl⟩

/-- 95_test_vectors.md section 2.7. -/
theorem test_decode_unknown_opcodes :
    decodeWord 0x00000000 = .error (.unknownOpcode 0x00) ∧ decodeWord 0x00000009 = .error (.unknownOpcode 0x09) ∧
      decodeWord 0x00000014 = .error (.unknownOpcode 0x14) ∧ decodeWord 0x00000022 = .error (.unknownOpcode 0x22) ∧
      decodeWord 0x000000FF = .error (.unknownOpcode 0xFF) := ⟨rfl, rfl, rfl, rfl, rfl⟩

theorem test_decodeBytes_takes_four :
    decodeBytes [0x02, 0x31, 0x00, 0x00, 0xAA] = .ok (.crcByte 0x31, [0xAA]) ∧
      decodeBytes [0x02, 0x31, 0x00] = .error (.tooShort 3) ∧ decodeBytes [] = .error (.tooShort 0) := ⟨rfl, rfl, rfl⟩

/-- The words of `CRC_UPDATE n=9` and `DEC_BYTE b=0x24` (30_encoding.md R76). -/
theorem test_encode : encode (.crcUpdate 9) = 0x00090004 ∧ encode (.decByte 0x24) = 0x00002421 := by decide

theorem test_decodeTableWord :
    decodeTableWord 32 0x00003102 = some (.crcByte 0x31) ∧ decodeTableWord 32 0x00000009 = none := ⟨rfl, rfl⟩

/-- The step that runs the table word as the first command after reset. -/
theorem test_withFetchWord_runs :
    read accOperr (step (State.reset.withFetchWord 32 0x00003102)) = some (0x9EFBCF93, .ok) := by decide +kernel

/-! ### CRC commands (95_test_vectors.md section 2.3) -/

/-- C1. -/
theorem test_crcInit :
    read accOperr (issued 0x00000001 { State.reset with acc := 0x9EFBCF93 }) = some (0xFFFFFFFF, .ok) := by decide +kernel

/-- C2. -/
theorem test_crcByte : read accOperr (issued 0x00003102 State.reset) = some (0x9EFBCF93, .ok) := by decide +kernel

/-- C4 and C5: bits 31:24 of ARG0 come first. -/
theorem test_crcWord :
    read accOperr (issued 0x00000003 { State.reset with arg0 := 0x31323334 }) = some (0xA695C4AA, .ok) ∧
      read accOperr (issued 0x00000003 { State.reset with arg0 := 0x34333231 }) = some (0xC2091428, .ok) := by
  decide +kernel

/-- C7. -/
theorem test_crcUpdate_pads :
    read accOperr (issued 0x00090004 (withIbuf [0x31, 0x32, 0x33, 0x34, 0x35, 0x36, 0x37, 0x38, 0x39])) =
      some (0xAE24E09D, .ok) := by decide +kernel

/-- C9. -/
theorem test_crcUpdate_too_long :
    read accOperr (issued 0x01010004 (withIbuf [0x31])) = some (0xFFFFFFFF, .errLength) := by decide +kernel

/-- C11: the previous ACC is ignored. -/
theorem test_crcFull :
    read accOperr (issued 0x00040005 { withIbuf [0x31, 0x32, 0x33, 0x34] with acc := 0x9EFBCF93 }) =
      some (0xA695C4AA, .ok) := by decide +kernel

/-- C16: IBUF bytes beyond N stay out of the window. -/
theorem test_crcFixed16_stale_bytes :
    read accOperr (issued 0x00040006 (withIbuf [0xAB, 0xCD, 0xEF, 0x01, 0x77, 0x77])) = some (0xF225FA43, .ok) := by
  decide +kernel

/-- C18: only 16 bytes are consumed. -/
theorem test_crcFixed16_longer :
    read accOperr (issued 0x00110006 (withIbuf (List.replicate 16 0x11 ++ [0x22]))) = some (0x22828FD7, .ok) := by
  decide +kernel

/-- C21. -/
theorem test_crcDatapack :
    read accOperr (issued 0x00030007 (withIbuf [0x41, 0x42, 0x43])) = some (0xA9381E47, .ok) := by decide +kernel

/-- C25. -/
theorem test_crcDatapack_too_long :
    read accOperr (issued 0x01FF0007 State.reset) = some (0xFFFFFFFF, .errLength) := by decide +kernel

/-- C28. -/
theorem test_crcCommand : read accOperr (issued 0x0000FF08 State.reset) = some (0x48647D00, .ok) := by decide +kernel

/-- Entries of CRC_TABLE (95_test_vectors.md section 2.1). -/
theorem test_crcTable :
    crcTable 0x10 = 0x4C11DB70 ∧ crcTable 0x31 = 0xD0F37027 ∧ crcTable 0x80 = 0x690CE0EE ∧
      crcTable 0xFF = 0xB1F740B4 := by decide +kernel

/-! ### Encode commands (95_test_vectors.md section 2.5) -/

/-- E2. -/
theorem test_encCommand :
    read encoded (issued 0x00000110 State.reset) =
      some (.ok, 0x1B6947CC, [0x24, 0x00, 0x01, 0x00, 0x01, 0xCC, 0x47, 0x69, 0x1B, 0x0D, 0x0A]) := by decide +kernel

/-- E3. -/
theorem test_encCommand_bad_code : read encoded (issued 0x00000210 State.reset) = some (.errArg, 0, []) := by
  decide +kernel

/-- E4. -/
theorem test_encData :
    read encoded (issued 0x00030011 (withIbuf [0x41, 0x42, 0x43])) =
      some (.ok, 0xA9381E47, [0x24, 0x01, 0x03, 0x00, 0x41, 0x42, 0x43, 0x47, 0x1E, 0x38, 0xA9, 0x0D, 0x0A]) := by
  decide +kernel

/-- E7. -/
theorem test_encData_empty : read encoded (issued 0x00000011 State.reset) = some (.errLength, 0, []) := by
  decide +kernel

/-- E9. -/
theorem test_encHeader :
    read encoded (issued 0x00000012 { State.reset with arg0 := 5, arg1 := 0xD7E2D253 }) =
      some (.ok, 0x68F19ECB, [0x24, 0x02, 0x10, 0x00, 0x05, 0x00, 0x00, 0x00, 0x53, 0xD2, 0xE2, 0xD7, 0x00, 0x00, 0x00,
        0x00, 0x00, 0x00, 0x00, 0x00, 0xCB, 0x9E, 0xF1, 0x68, 0x0D, 0x0A]) := by decide +kernel

/-- E13: a CRC field of zero. -/
theorem test_encBulkHeader :
    read encoded (issued 0x00000013 { State.reset with arg0 := 0xFFFFFFFF }) =
      some (.ok, 0, [0x24, 0x03, 0x04, 0x00, 0xFF, 0xFF, 0xFF, 0xFF, 0x00, 0x00, 0x00, 0x00, 0x0D, 0x0A]) := by
  decide +kernel

/-! ### Decoder commands (95_test_vectors.md section 2.6) -/

/-- The decoder before the last CRC byte of the frame of row D1. -/
def beforeCrc3 : State := { State.reset with dstate := .crc3, dlen := 1, dcnt := 1, dcrc := 0x0004DD7B }

/-- D1 at its last CRC byte. -/
theorem test_decByte_good_crc :
    read decoded (issued 0x0000C721 beforeCrc3) = some (0x00000900, 0, 1, 0xC704DD7B, 0xC704DD7B) := by decide +kernel

/-- D7 at its last CRC byte. -/
theorem test_decByte_bad_crc :
    read decoded (issued 0x0000C821 beforeCrc3) = some (0x00000050, 0, 1, 0xC804DD7B, 0xC704DD7B) := by decide +kernel

/-- The end state of row D16. -/
def midFrame : State :=
  { State.reset with dstate := .payload, dtype := 1, dlen := 3, dcnt := 1, mem := [(0x400, 0x41)] }

/-- The decoder reset after row D16. -/
theorem test_decReset :
    read decoded (issued 0x00000020 midFrame) = some (0, 0, 0, 0, 0) ∧
      read (·.mem.load 0x400 4) (issued 0x00000020 midFrame) = some [0, 0, 0, 0] := by decide +kernel

/-! ### Bus accesses (95_test_vectors.md sections 2.8 and 2.9) -/

theorem test_bus_unmapped :
    busErrorOf (.read 0x02C 4) = some .unmapped ∧ busErrorOf (.read 0x30C 1) = some .unmapped ∧
      busErrorOf (.write 0x1000 4 0) = some .unmapped := by decide +kernel

theorem test_bus_width : busErrorOf (.read 0x000 1) = some .width ∧ busErrorOf (.write 0x000 1 1) = some .width := by
  decide +kernel

theorem test_bus_align : busErrorOf (.read 0x002 4) = some .align ∧ busErrorOf (.read 0x102 4) = some .align := by
  decide +kernel

theorem test_bus_readonly :
    busErrorOf (.write 0x004 4 0) = some .readonly ∧ busErrorOf (.write 0x010 4 0) = some .readonly ∧
      busErrorOf (.write 0x200 1 0) = some .readonly := by decide +kernel

/-- The three reads of OBUF after `ENC_COMMAND b=0`. -/
theorem test_bus_obuf_little_endian :
    readAfter [commandLine (.encCommand 0), .read 0x200 4] State.reset = some (some 0x00010024) ∧
      readAfter [commandLine (.encCommand 0), .read 0x205 1] State.reset = some (some 0x7B) ∧
      readAfter [commandLine (.encCommand 0), .read 0x208 4] State.reset = some (some 0x000A0DC7) := by decide +kernel

theorem test_bus_obuf_pad_reads_zero :
    readAfter [.read 0x308 4] State.reset = some (some 0) ∧ readAfter [.read 0x30B 1] State.reset = some (some 0) := by
  decide +kernel

theorem test_bus_ibuf_word_then_byte :
    readAfter [.write 0x100 4 0x34333231, .read 0x100 1] State.reset = some (some 0x31) := by decide +kernel

theorem test_reset_reads :
    readAfter [.read 0x010 4] State.reset = some (some 0xFFFFFFFF) ∧ readAfter [.read 0x004 4] State.reset = some (some 0) ∧
      readAfter [.read 0x000 4] State.reset = some (some 0) := by decide +kernel

/-- "HELLO" loaded by one word and one byte, as program P3 of 95_test_vectors.md does, and then hashed. -/
theorem test_load_by_words :
    read (·.acc) (hostRuns (loadIbufByWords [0x48, 0x45, 0x4C, 0x4C, 0x4F] ++ [commandLine (.crcFull 5)]) State.reset) =
      some 0xD7E2D253 := by decide +kernel

/-- 70_reset_and_hazards.md R245: two updates of "12345" and "6789". -/
theorem test_partial_word_hazard :
    crcRaw (pad4 [0x36, 0x37, 0x38, 0x39]) (crcRaw (pad4 [0x31, 0x32, 0x33, 0x34, 0x35]) 0xFFFFFFFF) = 0xF378EB10 := by
  decide +kernel

/-- The host goes on after a BusError: the access is over and nothing else changed (20_memory.md R56). -/
theorem test_after_busError :
    afterBusError (onBus [.read 0x02C 4, .read 0x010 4]) = onBus [.read 0x010 4] := rfl

/-! ### Witnesses: the hypotheses of each statement are met -/

theorem witness_DecodeOfEncodedCommand : WellFormed (.crcUpdate 511) ∧ WellFormed (.decByte 0xFF) := by decide

/-- A word for every row, with the unused fields set. -/
theorem witness_OpcodeMapSelectsByMask :
    (0x01FFFF01 : Word) &&& 0xFE0000FF = 0x01 ∧ (0x01FF3102 : Word) &&& 0xFE0000FF = 0x02 ∧
      (0x01FFFF03 : Word) &&& 0xFE0000FF = 0x03 ∧ (0x01FFFF04 : Word) &&& 0xFE0000FF = 0x04 ∧
      (0x01FFFF05 : Word) &&& 0xFE0000FF = 0x05 ∧ (0x01FFFF06 : Word) &&& 0xFE0000FF = 0x06 ∧
      (0x01FFFF07 : Word) &&& 0xFE0000FF = 0x07 ∧ (0x01FFFF08 : Word) &&& 0xFE0000FF = 0x08 ∧
      (0x01FFFF10 : Word) &&& 0xFE0000FF = 0x10 ∧ (0x01FFFF11 : Word) &&& 0xFE0000FF = 0x11 ∧
      (0x01FFFF12 : Word) &&& 0xFE0000FF = 0x12 ∧ (0x01FFFF13 : Word) &&& 0xFE0000FF = 0x13 ∧
      (0x01FFFF20 : Word) &&& 0xFE0000FF = 0x20 ∧ (0x01FFFF21 : Word) &&& 0xFE0000FF = 0x21 ∧
      decodeWord 0x01FFFF01 = .ok .crcInit :=
  ⟨rfl, rfl, rfl, rfl, rfl, rfl, rfl, rfl, rfl, rfl, rfl, rfl, rfl, rfl, rfl⟩

theorem witness_StepRunsDecodedCommand :
    (onBus [.write 0x000 4 0x01FFFF01]).pending = [.write 0x000 4 0x01FFFF01] ∧ decodeWord 0x01FFFF01 = .ok .crcInit :=
  ⟨rfl, rfl⟩

/-- RSV bits 25 and 31, and the first and last opcode of each illegal range. -/
theorem witness_IllegalWordSetsErrOpcode :
    (onBus [.write 0x000 4 0x02000001]).pending = [.write 0x000 4 0x02000001] ∧
      (0x02000001 : Word).extractLsb' 25 7 ≠ 0 ∧ (0x80000010 : Word).extractLsb' 25 7 ≠ 0 ∧
      ((0x00000000 : Word).extractLsb' 0 8).toNat = 0x00 ∧ ((0x00000009 : Word).extractLsb' 0 8).toNat = 0x09 ∧
      ((0x0000000F : Word).extractLsb' 0 8).toNat = 0x0F ∧ ((0x00000014 : Word).extractLsb' 0 8).toNat = 0x14 ∧
      ((0x0000001F : Word).extractLsb' 0 8).toNat = 0x1F ∧ ((0x00000022 : Word).extractLsb' 0 8).toNat = 0x22 ∧
      ((0x000000FF : Word).extractLsb' 0 8).toNat = 0xFF := by decide

theorem witness_NoPendingEventChangesNothing : State.reset.pending = [] := rfl

/-- Each clause at the edges of the map: unmapped, wrong width, misaligned, read-only, and an access that passes. -/
theorem witness_HostAccessChecksInOrder :
    (onBus [.write 0x02C 4 0]).pending = [.write 0x02C 4 0] ∧ (onBus [.read 0x02C 4]).pending = [.read 0x02C 4] ∧
      (¬ specMapped 0x02C ∧ ¬ specMapped 0x0FF ∧ ¬ specMapped 0x30C ∧ ¬ specMapped 0x3FF ∧ ¬ specMapped 0x500) ∧
      (specMapped 0x02B ∧ ¬ specWidth 0x02B 1 ∧ specMapped 0x100 ∧ ¬ specWidth 0x100 2) ∧
      (specMapped 0x029 ∧ specWidth 0x029 4 ∧ 0x029 % 4 ≠ 0) ∧
      (specMapped 0x30B ∧ specWidth 0x30B 1 ∧ ¬ specWritable 0x30B) ∧
      (specMapped 0x1FC ∧ specWidth 0x1FC 4 ∧ 0x1FC % 4 = 0 ∧ specWritable 0x1FC) ∧
      (specMapped 0x4FF ∧ specWidth 0x4FF 1 ∧ ¬ specWritable 0x4FF) := by
  unfold specMapped specWidth specWritable
  refine ⟨rfl, rfl, ?_, ?_, ?_, ?_, ?_, ?_⟩ <;> decide

theorem witness_RegisterReadReturnsValue :
    ∀ off ∈ [0x000, 0x004, 0x008, 0x00C, 0x010, 0x014, 0x018, 0x01C, 0x020, 0x024, 0x028],
      (onBus [.read off 4]).pending = [.read off 4] := fun _ _ => rfl

/-- The first IBUF byte, the last DBUF byte, the pad, and the word that reaches into the pad. -/
theorem witness_BufferReadIsLittleEndian :
    (specMapped 0x100 ∧ 0x100 ≤ 0x100) ∧ (specMapped 0x4FF ∧ 0x100 ≤ 0x4FF) ∧ (specMapped 0x30B ∧ 0x100 ≤ 0x30B) ∧
      (specMapped 0x308 ∧ 0x308 % 4 = 0) ∧ (onBus [.read 0x308 1]).pending = [.read 0x308 1] ∧
      (onBus [.read 0x308 4]).pending = [.read 0x308 4] := by
  unfold specMapped
  decide

theorem witness_OperandRegisterWriteStoresValue :
    (onBus [.write 0x008 4 0xFFFFFFFF]).pending = [.write 0x008 4 0xFFFFFFFF] ∧
      (onBus [.write 0x00C 4 0xFFFFFFFF]).pending = [.write 0x00C 4 0xFFFFFFFF] := ⟨rfl, rfl⟩

theorem witness_IbufWriteChangesItsBytesOnly :
    (onBus [.write 0x1FF 1 0xAB]).pending = [.write 0x1FF 1 0xAB] ∧ 0x100 ≤ 0x1FF ∧ 0x1FF < 0x200 ∧
      (onBus [.write 0x1FC 4 0xAB]).pending = [.write 0x1FC 4 0xAB] ∧ 0x1FC % 4 = 0 := by decide

theorem witness_ResetEventGivesResetValues :
    ({ beforeCrc3 with pending := [.reset, .read 0x010 4] } : State).pending = .reset :: [.read 0x010 4] := rfl

theorem witness_FixedWindowIgnoresZeroPadding :
    ([] : List Byte).length ≤ 16 ∧ (List.replicate 16 (0x11 : Byte)).length ≤ 16 ∧
      (List.replicate 256 (0xFF : Byte)).length ≤ 256 := by decide +kernel

theorem witness_CrcInitResetsAcc :
    ∃ t, exec .crcInit beforeCrc3 = .next t := ⟨_, rfl⟩

theorem witness_CrcByteStepsAcc : [(0x31 : Byte), 0x32, 0x33, 0x34].length % 4 = 0 := rfl

/-- The count at both sides of its limit. -/
theorem witness_CrcUpdateAccumulates : 256 ≤ 256 ∧ 256 < 257 ∧ 256 < 511 := by decide

/-- The count at both sides of its limit, and CRC_INIT answers a next state. -/
theorem witness_CrcFullComputesImageCrc : (256 ≤ 256 ∧ 256 < 257) ∧ ∃ t, exec .crcInit State.reset = .next t :=
  ⟨by decide, _, rfl⟩

/-- The count at both sides of the window and of its limit. -/
theorem witness_CrcFixed16ComputesWindowCrc : 15 < 16 ∧ (16 ≤ 16 ∧ 16 ≤ 256) ∧ (16 ≤ 256 ∧ 256 ≤ 256) ∧ 256 < 257 := by
  decide

/-- The count at both sides of its limit. -/
theorem witness_CrcDatapackComputesWindowCrc : 256 ≤ 256 ∧ 256 < 257 := by decide

/-- Two states that differ in IBUF[4] only, and commands that run in both. -/
theorem witness_CrcIgnoresStaleIbuf :
    (withIbuf [1, 2, 3, 4, 5]).acc = (withIbuf [1, 2, 3, 4, 6]).acc ∧
      (withIbuf [1, 2, 3, 4, 5]).mem.load 0x100 (min 4 16) = (withIbuf [1, 2, 3, 4, 6]).mem.load 0x100 (min 4 16) ∧
      (withIbuf [1, 2, 3, 4, 5]).mem.load 0x100 (min 4 256) = (withIbuf [1, 2, 3, 4, 6]).mem.load 0x100 (min 4 256) ∧
      (withIbuf [1, 2, 3, 4, 5]).mem.load 0x100 4 = (withIbuf [1, 2, 3, 4, 6]).mem.load 0x100 4 ∧
      (withIbuf [1, 2, 3, 4, 5]).mem ≠ (withIbuf [1, 2, 3, 4, 6]).mem := by decide +kernel

theorem witness_CrcIgnoresStaleIbuf_runs :
    (∃ t, exec (.crcFixed16 4) (withIbuf [1, 2, 3, 4, 5]) = .next t) ∧
      (∃ t, exec (.crcDatapack 4) (withIbuf [1, 2, 3, 4, 5]) = .next t) ∧
      (∃ t, exec (.crcUpdate 4) (withIbuf [1, 2, 3, 4, 5]) = .next t) ∧
      ∃ t, exec (.crcFull 4) (withIbuf [1, 2, 3, 4, 5]) = .next t := ⟨⟨_, rfl⟩, ⟨_, rfl⟩, ⟨_, rfl⟩, _, rfl⟩

theorem witness_ChunkedCrcEqualsImageCrc :
    (∀ p ∈ [[(0x31 : Byte), 0x32, 0x33, 0x34], []], p.length % 4 = 0 ∧ p.length ≤ 256) ∧
      [(0x35 : Byte)].length ≤ 256 := by decide

theorem witness_LoadIbufFillsIbuf : (List.replicate 256 (0xFF : Byte)).length ≤ 256 := by decide +kernel

theorem witness_LoadIbufByWordsIsTheSame : [(0x31 : Byte), 0x32, 0x33, 0x34, 0x35].length ≤ 256 := by decide

theorem witness_EncCommandBuildsFrame :
    (0 : Byte).toNat ≤ 1 ∧ (1 : Byte).toNat ≤ 1 ∧ 1 < (2 : Byte).toNat := by decide

theorem witness_EncDataBuildsFrame : (1 ≤ 1 ∧ 256 ≤ 256) ∧ (0 = 0 ∨ 256 < 0) ∧ (257 = 0 ∨ 256 < 257) := by decide

theorem witness_EncodersAgreeWithSource :
    [(0x48 : Byte)].length < 2 ^ 32 ∧ 1 ≤ [(0x48 : Byte)].length ∧ (List.replicate 256 (0 : Byte)).length ≤ 256 ∧
      (1 : Byte).toNat ≤ 1 := by decide +kernel

theorem witness_EncodedFrameDependsOnOperandsOnly :
    familyOf (.encData 4) = .enc ∧
      (withIbuf [1, 2, 3, 4, 5]).arg0 = (withIbuf [1, 2, 3, 4, 6]).arg0 ∧
      (withIbuf [1, 2, 3, 4, 5]).arg1 = (withIbuf [1, 2, 3, 4, 6]).arg1 ∧
      (withIbuf [1, 2, 3, 4, 5]).mem.load 0x100 (countField (.encData 4)) =
        (withIbuf [1, 2, 3, 4, 6]).mem.load 0x100 (countField (.encData 4)) := by decide +kernel

/-- For EncodedFrameDependsOnOperandsOnly, EncodedLengthFieldIsOlenLessTen, EncodedCrcFieldIsFcrc and
EncodedFrameDecodes: each encode command runs, from states in HUNT, and ends with OPERR = OK. -/
theorem witness_EncodedFrame :
    read (fun t => (t.operr, t.dstate)) (exec (.encData 4) (withIbuf [1, 2, 3, 4, 5])) = some (.ok, .hunt) ∧
      read (fun t => (t.operr, t.dstate)) (exec (.encData 4) (withIbuf [1, 2, 3, 4, 6])) = some (.ok, .hunt) ∧
      read (fun t => (t.operr, t.dstate)) (exec (.encCommand 1) State.reset) = some (.ok, .hunt) ∧
      read (fun t => (t.operr, t.dstate)) (exec .encHeader State.reset) = some (.ok, .hunt) ∧
      read (fun t => (t.operr, t.dstate)) (exec .encBulkHeader State.reset) = some (.ok, .hunt) := by decide +kernel

theorem witness_DecByteInHunt : State.reset.dstate = .hunt ∧ (0x24 : Byte) = 0x24 ∧ (0x0D : Byte) ≠ 0x24 := by decide

theorem witness_DecByteInType :
    ({ State.reset with dstate := .typ } : State).dstate = .typ ∧ (3 : Byte).toNat ≤ 3 ∧ (4 : Byte).toNat = 4 ∧
      5 ≤ (5 : Byte).toNat ∧ 5 ≤ (255 : Byte).toNat := by decide

/-- Both sides of each length limit (42_decode.md R175). -/
theorem witness_DecByteInLength :
    ({ State.reset with dstate := .lenLo } : State).dstate = .lenLo ∧
      ({ State.reset with dstate := .lenHi, dtype := 1 } : State).dstate = .lenHi ∧
      (specLegal 0 1 ∧ ¬ specLegal 0 2) ∧ (specLegal 1 1 ∧ specLegal 1 256) ∧ (¬ specLegal 1 0 ∧ ¬ specLegal 1 257) ∧
      (specLegal 2 16 ∧ ¬ specLegal 2 15) ∧ specLegal 3 4 ∧ ¬ specLegal 3 5 := by
  unfold specLegal
  refine ⟨rfl, rfl, ?_, ?_, ?_, ?_, ?_⟩ <;> decide

/-- The last payload byte and an earlier one, at the largest DCNT. -/
theorem witness_DecByteInPayload :
    ({ State.reset with dstate := .payload, dlen := 256, dcnt := 255 } : State).dcnt.toNat < 256 ∧
      (255 : BitVec 9).toNat + 1 = (256 : BitVec 16).toNat ∧ (254 : BitVec 9).toNat + 1 ≠ (256 : BitVec 16).toNat := by
  decide

theorem witness_DecByteInCrcField :
    ({ State.reset with dstate := .crc0 } : State).dstate = .crc0 ∧
      ({ State.reset with dstate := .crc1 } : State).dstate = .crc1 ∧
      ({ State.reset with dstate := .crc2 } : State).dstate = .crc2 := ⟨rfl, rfl, rfl⟩

/-- Both outcomes for a Command frame, and the windows of the other types. -/
theorem witness_DecByteInCrc3 :
    beforeCrc3.dstate = .crc3 ∧ beforeCrc3.dtype = 0 ∧
      (0xC704DD7B : Word) = crcCommand (byteAt (beforeCrc3.mem.load 0x400 beforeCrc3.dlen.toNat) 0) ∧
      (0xC704DD7B : Word) = beforeCrc3.dcrc ||| ((0xC7 : Byte).zeroExtend 32 <<< 24) ∧
      (0xC704DD7B : Word) ≠ beforeCrc3.dcrc ||| ((0xC8 : Byte).zeroExtend 32 <<< 24) ∧
      ({ beforeCrc3 with dtype := 1 } : State).dtype = 1 ∧ ({ beforeCrc3 with dtype := 2 } : State).dtype = 2 ∧
      ({ beforeCrc3 with dtype := 3 } : State).dtype = 3 := by decide +kernel

theorem witness_DecByteInTerminator :
    ({ State.reset with dstate := .cr } : State).dstate = .cr ∧ ({ State.reset with dstate := .lf } : State).dstate = .lf ∧
      (0x0D : Byte) ≠ 0x0A := by decide

/-- The block after the frame of row D1 meets the invariant with D_FRAME_OK. -/
theorem witness_DecodedFrameStaysValid :
    BlockInv { State.reset with
      devent := .frameOk, dlen := 1, dcnt := 1, dcrc := crcCommand 0, dcalc := crcCommand 0 } := by
  refine ⟨⟨rfl, fun _ _ => rfl⟩, .inl ⟨rfl, rfl, by decide +kernel⟩, fun h => absurd rfl h, by decide, fun _ _ _ => rfl, ?_⟩
  exact ⟨⟨rfl, rfl⟩, by decide +kernel, rfl⟩

theorem witness_DecodedFrameStaysValid_commands :
    (Instr.decByte 0x0D ≠ .decReset ∧ Instr.decByte 0x0D ≠ .decByte 0x24) ∧
      ∃ t, exec (.decByte 0x0D) State.reset = .next t := ⟨by decide, _, rfl⟩

theorem witness_LegalFrameDecodes :
    specLegal 0 [(7 : Byte)].length ∧ specLegal 1 (List.replicate 256 (0 : Byte)).length ∧ State.reset.dstate = .hunt ∧
      (0 < 1 ∧ 1 < [(7 : Byte)].length + 10) := by
  unfold specLegal
  decide +kernel

theorem witness_WrongCrcEndsFrameAtLastCrcByte :
    specLegal 0 [(0 : Byte)].length ∧ (0xC804DD7B : Word) ≠ typeCrc 0#8 [0] ∧ State.reset.dstate = .hunt := by
  refine ⟨.inl ⟨rfl, rfl⟩, ?_, rfl⟩
  rw [typeCrc_command]
  decide +kernel

theorem witness_CommandsWriteOnlyTheirState :
    (∃ t, exec .crcInit State.reset = .next t) ∧ familyOf .crcInit = .crc ∧ familyOf .encHeader = .enc ∧
      familyOf .decReset = .dec ∧
      (State.reset.mem.read 0x200 = 0 ∧
        read (·.mem.read 0x200) (exec .encHeader State.reset) = some 0x24) :=
  ⟨⟨_, rfl⟩, rfl, rfl, rfl, by decide +kernel⟩

/-- A write of each kind of rejected word answers a next state with OPERR ≠ OK. -/
theorem witness_CommandErrorChangesOnlyOperr :
    read (·.operr) (issued 0x02000001 State.reset) = some .errOpcode ∧
      read (·.operr) (issued 0x01010011 State.reset) = some .errLength ∧
      read (·.operr) (issued 0x00000210 State.reset) = some .errArg := by decide +kernel

theorem witness_FirstFailingCheckDecidesOperr :
    (onBus [.write 0x000 4 0x82010011]).pending = [.write 0x000 4 0x82010011] := rfl

theorem witness_StepKeepsInvariant : BlockInv State.reset ∧ ∃ t, step State.reset = .next t := by
  refine ⟨⟨⟨rfl, fun _ _ => rfl⟩, .inl ⟨rfl, rfl, by decide +kernel⟩, fun _ => rfl, by decide, fun _ _ _ => rfl, ?_⟩, _, rfl⟩
  exact ⟨rfl, rfl, rfl, rfl, rfl⟩

end Sys2Proof.Tests
end

section
/-! PROOFS. A word that is no command: what the decoder, `issue` and the step that takes its CMD write answer
(30_encoding.md R71 to R74). -/

namespace Sys2Proof

/-- RSV is checked first, whatever OP is (R71). -/
theorem decodeWord_of_rsv_ne_zero {w : Word} (h : fieldRsv w ≠ 0) :
    decodeWord w = .error (.reservedBits (fieldRsv w)) := by
  rw [decodeWord, if_pos h]

theorem decodeWord_of_opcodeMap_none {w : Word} (hrsv : fieldRsv w = 0)
    (hop : opcodeMap (fieldOp w) (fieldB w) (fieldN w).toNat = none) :
    decodeWord w = .error (.unknownOpcode (fieldOp w)) := by
  rw [decodeWord, if_neg (not_not_intro hrsv), hop]

/-- The opcode ranges that R74 calls illegal: they miss every row of the map R73. -/
theorem opcodeMap_eq_none {op b : Byte} {n : Nat}
    (h : op.toNat = 0x00 ∨ (0x09 ≤ op.toNat ∧ op.toNat ≤ 0x0F) ∨ (0x14 ≤ op.toNat ∧ op.toNat ≤ 0x1F) ∨
      0x22 ≤ op.toNat) :
    opcodeMap op b n = none := by
  unfold opcodeMap
  split
  case h_15 => rfl
  all_goals omega

namespace Machine

theorem issue_of_decodeWord_error {w : Word} {e : DecodeError} (h : decodeWord w = .error e) (s : State) :
    issue w s = .next { s with operr := .errOpcode } := by
  rw [issue, h]
  exact reject_eq .errOpcode s

/-- A word write at the offset of CMD passes every check of R52. -/
theorem busCheck_cmd_write : busCheck 0x000 4 true = .ok (registerRow .cmd 0x000 true) :=
  busCheck_of_ok rfl (by decide) (fun _ => rfl) (fun _ => rfl)

/-- The step that takes a CMD write stores the word and issues it (R22, R71). -/
theorem step_of_cmd_write {w : Word} {s : State} {rest : List HostEvent}
    (h : s.pending = .write 0x000 4 w :: rest) :
    step s = issue w { s with cmd := w, pending := rest, readData := none } := by
  simp only [step, h, takeEvent, memWrite, busCheck_cmd_write]
  rfl

/-- Settles O5: the decoder answers an error for the word, by its RSV check or by the opcode map. -/
theorem illegalWordSetsErrOpcode : Obligations.IllegalWordSetsErrOpcode := by
  unfold Obligations.IllegalWordSetsErrOpcode
  intro w s rest hpending hillegal
  rw [step_of_cmd_write hpending]
  by_cases hrsv : fieldRsv w = 0
  · have hop : opcodeMap (fieldOp w) (fieldB w) (fieldN w).toNat = none :=
      opcodeMap_eq_none (hillegal.resolve_left (not_not_intro hrsv))
    exact issue_of_decodeWord_error (decodeWord_of_opcodeMap_none hrsv hop) _
  · exact issue_of_decodeWord_error (decodeWord_of_rsv_ne_zero hrsv) _

end Machine
end Sys2Proof
end

section
/-! PROOFS. From the command word to the command: the rows of the opcode map R73 by mask, the round trip of an encoded
command, and the host run of one command line (30_encoding.md R70 to R76). -/

namespace Sys2Proof

open Machine

/-- A word that a row of the opcode map matches by mask has the row's bits in every field the mask covers. -/
theorem field_of_mask {w v mask : Word} (hmask : w &&& mask = v) {start len : Nat}
    (hcover : mask.extractLsb' start len = BitVec.allOnes len) :
    w.extractLsb' start len = v.extractLsb' start len := by
  rw [← hmask, BitVec.extractLsb'_and, hcover, BitVec.and_allOnes]

/-- A word whose OP and RSV bits match a row of the opcode map decodes to that row's command (R73). -/
theorem decodeWord_of_mask {w : Word} {op : Byte} {i : Instr} (hmask : w &&& 0xFE0000FF = op.zeroExtend 32)
    (hrow : opcodeMap op (fieldB w) (fieldN w).toNat = some i) : decodeWord w = .ok i := by
  have hword : op.zeroExtend 32 = (0 : BitVec 24) ++ op := BitVec.setWidth_eq_append (by decide)
  have hrsv : fieldRsv w = 0 := by
    rw [fieldRsv, field_of_mask hmask rfl, hword, BitVec.extractLsb'_append_eq_of_le (by decide)]
    rfl
  have hop : fieldOp w = op := by
    rw [fieldOp, field_of_mask hmask rfl, hword]
    exact BitVec.extractLsb'_append_eq_right
  rw [decodeWord, if_neg (not_not_intro hrsv), hop, hrow]

@[simp] theorem fieldOp_encode (i : Instr) : fieldOp (encode i) = opcodeOf i :=
  BitVec.extractLsb'_append_eq_right

@[simp] theorem fieldB_encode (i : Instr) : fieldB (encode i) = byteField i :=
  (BitVec.extractLsb'_append_eq_of_le (by decide)).trans BitVec.extractLsb'_append_eq_right

@[simp] theorem fieldN_encode (i : Instr) : fieldN (encode i) = BitVec.ofNat 9 (countField i) :=
  (BitVec.extractLsb'_append_eq_of_le (by decide)).trans <|
    (BitVec.extractLsb'_append_eq_of_le (by decide)).trans BitVec.extractLsb'_append_eq_right

@[simp] theorem fieldRsv_encode (i : Instr) : fieldRsv (encode i) = 0 :=
  (BitVec.extractLsb'_append_eq_of_le (by decide)).trans <|
    (BitVec.extractLsb'_append_eq_of_le (by decide)).trans BitVec.extractLsb'_append_eq_left

theorem countField_lt {i : Instr} (h : WellFormed i) : countField i < 512 := by
  cases i with
  | crcUpdate n | crcFull n | crcFixed16 n | crcDatapack n | encData n => exact of_decide_eq_true h
  | _ => exact Nat.zero_lt_succ _

/-- The encoder is written from the rows the decoder reads (R73, R76). -/
theorem opcodeMap_of_fields (i : Instr) : opcodeMap (opcodeOf i) (byteField i) (countField i) = some i := by
  cases i <;> rfl

/-- A command a word can carry survives the round trip through its word (R70, R73). -/
theorem decodeWord_encode {i : Instr} (h : WellFormed i) : decodeWord (encode i) = .ok i := by
  have hn : (fieldN (encode i)).toNat = countField i := by
    rw [fieldN_encode, BitVec.toNat_ofNat, Nat.mod_eq_of_lt (countField_lt h)]
  rw [decodeWord, if_neg (not_not_intro (fieldRsv_encode i)), hn, fieldOp_encode, fieldB_encode, opcodeMap_of_fields]

namespace Machine

theorem issue_encode {i : Instr} (h : WellFormed i) (s : State) : issue (encode i) s = exec i s := by
  rw [issue, decodeWord_encode h]

/-- A host whose next event is a command line: the command runs with its word in CMD, and the host goes on from the
state it answers, if the command leaves the pending events alone (R71, R76). -/
theorem hostRuns_commandLine {i : Instr} {es : List HostEvent} {s t : State} (hi : WellFormed i)
    (hrun : exec i { s with cmd := encode i, pending := es, readData := none } = .next t) (ht : t.pending = es) :
    hostRuns (commandLine i :: es) s = hostRuns es t := by
  have hstep : step { s with pending := commandLine i :: es } = .next t := by
    rw [step_of_cmd_write rfl, issue_encode hi]
    exact hrun
  have hpending : { t with pending := es } = t := by rw [← ht]
  rw [hostRuns, hostRuns, hpending]
  exact runSteps_succ hstep

end Machine
end Sys2Proof
end

section
/-! PROOFS. The CRC commands (40_crc.md R110 to R117): each one's decoding, its effect on ACC and OPERR, and what the
run of CRC_BYTE commands computes. -/

namespace Sys2Proof.Machine

/-! ### What the commands compute -/

theorem exec_crcInit (s : State) : exec .crcInit s = .next { s with acc := 0xFFFFFFFF, operr := .ok } :=
  putAcc_eq Config.crcInit s

theorem exec_crcByte (b : Byte) (s : State) :
    exec (.crcByte b) s = .next { s with acc := crcStep s.acc b, operr := .ok } :=
  putAcc_eq (crcStep s.acc b) s

theorem exec_crcWord (s : State) : exec .crcWord s = .next { s with acc := crcWord s.acc s.arg0, operr := .ok } :=
  putAcc_eq (crcWord s.acc s.arg0) s

theorem exec_crcCommand (b : Byte) (s : State) :
    exec (.crcCommand b) s = .next { s with acc := crcCommand b, operr := .ok } :=
  putAcc_eq (crcCommand b) s

/-- The common outcome of a CRC command whose count N passes the range check. -/
theorem withCount_putAcc {n : Nat} (h : n ≤ 256) (v : Word) (s : State) :
    withCount 0 n s (putAcc v s) = .next { s with acc := v, operr := .ok } :=
  (withCount_of_mem ⟨Nat.zero_le n, h⟩).trans (putAcc_eq v s)

theorem exec_crcUpdate_of_le {n : Nat} (h : n ≤ 256) (s : State) :
    exec (.crcUpdate n) s = .next { s with acc := crcRaw (pad4 (s.mem.load 0x100 n)) s.acc, operr := .ok } :=
  withCount_putAcc h _ s

theorem exec_crcFull_of_le {n : Nat} (h : n ≤ 256) (s : State) :
    exec (.crcFull n) s = .next { s with acc := crcFullImage (s.mem.load 0x100 n), operr := .ok } :=
  withCount_putAcc h _ s

theorem exec_crcFixed16_of_le {n : Nat} (h : n ≤ 256) (s : State) :
    exec (.crcFixed16 n) s = .next { s with acc := crcFixed16 (s.mem.load 0x100 n), operr := .ok } :=
  withCount_putAcc h _ s

theorem exec_crcDatapack_of_le {n : Nat} (h : n ≤ 256) (s : State) :
    exec (.crcDatapack n) s = .next { s with acc := crcFixedDatapack (s.mem.load 0x100 n), operr := .ok } :=
  withCount_putAcc h _ s

/-- The four commands that read IBUF refuse a count above 256 (R113 to R116). -/
theorem exec_crcCount_of_gt {n : Nat} (h : 256 < n) (s : State) {i : Instr}
    (hi : i = .crcUpdate n ∨ i = .crcFull n ∨ i = .crcFixed16 n ∨ i = .crcDatapack n) :
    exec i s = .next { s with operr := .errLength } := by
  obtain rfl | rfl | rfl | rfl := hi <;> exact withCount_of_not_mem (.inr h)

/-! ### The CRC functions on what the commands read -/

/-- The word step consumes the bytes of a big-endian word in sequence order (R102, R103). -/
theorem crcWord_be32 (c : Word) (b0 b1 b2 b3 : Byte) : crcWord c (be32 b0 b1 b2 b3) = crcRaw [b0, b1, b2, b3] c := by
  simp [crcWord]

theorem crcCommand_eq_crcRaw (b : Byte) : crcCommand b = crcRaw [b, 0, 0, 0] 0xFFFFFFFF :=
  crcWord_be32 Config.crcInit b 0 0 0

theorem crcFullImage_of_dvd {bs : List Byte} (h : bs.length % 4 = 0) : crcFullImage bs = crcRaw bs 0xFFFFFFFF :=
  congrArg (crcRaw · Config.crcInit) (pad4_of_dvd h)

theorem window_load_of_le {n k : Nat} (h : n ≤ k) (m : Memory) (lo : Nat) :
    window (m.load lo n) k = m.load lo n ++ zeros (k - n) := by
  rw [window_of_le (by rwa [load_length]), load_length]

theorem window_load_of_ge {n k : Nat} (h : k ≤ n) (m : Memory) (lo : Nat) : window (m.load lo n) k = m.load lo k := by
  rw [window_of_ge (by rwa [load_length]), load_take h]

theorem crcFixed16_nil : crcFixed16 [] = 0x552D22C8 := by decide +kernel

theorem crcFixedDatapack_nil : crcFixedDatapack [] = 0xE55E964F := by decide +kernel

/-! ### Runs of CRC_BYTE -/

/-- CRC_BYTE of each byte of a sequence continues the unpadded core from ACC (R104, R111). -/
theorem hostRuns_crcBytes (bs : List Byte) (s : State) : ∃ t,
    hostRuns (bs.map fun b => commandLine (.crcByte b)) s = .next t ∧ t.acc = crcRaw bs s.acc := by
  induction bs generalizing s with
  | nil => exact ⟨_, hostRuns_nil s, rfl⟩
  | cons b bs ih =>
    rw [List.map_cons, hostRuns_commandLine rfl (exec_crcByte b _) rfl]
    exact ih _

/-! ### The obligations -/

/-- Settles O20: the run law is the run of CRC_INIT, then `hostRuns_crcBytes` from ACC = 0xFFFFFFFF. -/
theorem crcByteStepsAcc : Obligations.CrcByteStepsAcc := by
  unfold Obligations.CrcByteStepsAcc
  refine ⟨fun w h => decodeWord_of_mask (op := 0x02) h rfl, exec_crcByte, by decide +kernel, fun bs s => ?_⟩
  rw [hostRuns_commandLine rfl (exec_crcInit _) rfl]
  obtain ⟨t, hrun, hacc⟩ := hostRuns_crcBytes bs _
  exact ⟨t, hrun, hacc, fun hlen => hacc.trans (crcFullImage_of_dvd hlen).symm⟩

/-- Settles O19: the result does not depend on ACC or OPERR, so a second CRC_INIT gives it again. -/
theorem crcInitResetsAcc : Obligations.CrcInitResetsAcc := by
  unfold Obligations.CrcInitResetsAcc
  refine ⟨fun w h => decodeWord_of_mask (op := 0x01) h rfl, fun s => ⟨exec_crcInit s, fun t ht => ?_⟩⟩
  cases ht
  exact exec_crcInit _

/-- Settles O21: the word step is the command's own, and the printed values are evaluated. -/
theorem crcWordStepsAcc : Obligations.CrcWordStepsAcc := by
  unfold Obligations.CrcWordStepsAcc
  exact ⟨fun w h => decodeWord_of_mask (op := 0x03) h rfl, exec_crcWord, by decide +kernel⟩

/-- Settles O22: one case for each side of the limit on N; for N = 0 the padded input is empty. -/
theorem crcUpdateAccumulates : Obligations.CrcUpdateAccumulates := by
  unfold Obligations.CrcUpdateAccumulates
  refine ⟨fun w h => decodeWord_of_mask (op := 0x04) h rfl, fun n s => ⟨fun h => exec_crcUpdate_of_le h s,
    fun h => exec_crcCount_of_gt h s (.inl rfl), ?zero⟩, by decide +kernel⟩
  case zero => rw [exec_crcUpdate_of_le (Nat.zero_le _), Memory.load, pad4_of_dvd rfl, crcRaw_nil]

/-- Settles O23: CRC_FULL is CRC_UPDATE from the ACC that CRC_INIT leaves. -/
theorem crcFullComputesImageCrc : Obligations.CrcFullComputesImageCrc := by
  unfold Obligations.CrcFullComputesImageCrc
  refine ⟨fun w h => decodeWord_of_mask (op := 0x05) h rfl, fun n s => ⟨fun h => exec_crcFull_of_le h s,
    fun h => exec_crcCount_of_gt h s (.inr (.inl rfl)), ?zero, fun h t ht => ?afterInit⟩, by decide +kernel⟩
  case zero => rw [exec_crcFull_of_le (Nat.zero_le _), Memory.load, crcFullImage_of_dvd rfl, crcRaw_nil]
  case afterInit =>
    cases ht
    rw [exec_crcUpdate_of_le h, exec_crcFull_of_le h]
    rfl

/-- Settles O24: a count below 16 is padded to the window, a count from 16 on is cut to it. -/
theorem crcFixed16ComputesWindowCrc : Obligations.CrcFixed16ComputesWindowCrc := by
  unfold Obligations.CrcFixed16ComputesWindowCrc
  refine ⟨fun w h => decodeWord_of_mask (op := 0x06) h rfl, fun n s => ⟨fun h => ?below, fun h16 h256 => ?above,
    fun h => exec_crcCount_of_gt h s (.inr (.inr (.inl rfl))), ?zero⟩, by decide +kernel⟩
  case below => rw [exec_crcFixed16_of_le (by omega), crcFixed16, Config.fixed16Window, window_load_of_le h.le]; rfl
  case above => rw [exec_crcFixed16_of_le h256, crcFixed16, Config.fixed16Window, window_load_of_ge h16]; rfl
  case zero => rw [exec_crcFixed16_of_le (Nat.zero_le _), Memory.load, crcFixed16_nil]

/-- Settles O25: every accepted count is padded to the window. -/
theorem crcDatapackComputesWindowCrc : Obligations.CrcDatapackComputesWindowCrc := by
  unfold Obligations.CrcDatapackComputesWindowCrc
  refine ⟨fun w h => decodeWord_of_mask (op := 0x07) h rfl, fun n s => ⟨fun h => ?accepted,
    fun h => exec_crcCount_of_gt h s (.inr (.inr (.inr rfl))), ?zero⟩, by decide +kernel⟩
  case accepted =>
    rw [exec_crcDatapack_of_le h, crcFixedDatapack, Config.datapackWindow, window_load_of_le h]; rfl
  case zero => rw [exec_crcDatapack_of_le (Nat.zero_le _), Memory.load, crcFixedDatapack_nil]

/-- Settles O26: the word step on `be32 b 0 0 0` is the core on the four bytes. -/
theorem crcCommandHashesByte : Obligations.CrcCommandHashesByte := by
  unfold Obligations.CrcCommandHashesByte
  refine ⟨fun w h => decodeWord_of_mask (op := 0x08) h rfl, fun b s => ?_, by decide +kernel⟩
  rw [exec_crcCommand, crcCommand_eq_crcRaw]

end Sys2Proof.Machine
end

section
/-! PROOFS. The encode commands (41_encode.md R142 to R145): each one's decoding, the outcome of the command, and the
frame it builds written out byte by byte. -/

namespace Sys2Proof.Machine

/-! ### What the commands answer -/

theorem exec_encCommand_of_le {b : Byte} (h : b.toNat ≤ 1) (s : State) :
    exec (.encCommand b) s = buildFrame 0 [b] (crcCommand b) s :=
  if_neg (Nat.not_lt.mpr h)

theorem exec_encCommand_of_gt {b : Byte} (h : 1 < b.toNat) (s : State) :
    exec (.encCommand b) s = .next { s with operr := .errArg } :=
  (if_pos h).trans (reject_eq .errArg s)

theorem exec_encData_of_mem {n : Nat} (h : 1 ≤ n ∧ n ≤ 256) (s : State) :
    exec (.encData n) s = buildFrame 1 (s.mem.load 0x100 n) (crcFixedDatapack (s.mem.load 0x100 n)) s :=
  withCount_of_mem h

theorem exec_encData_of_not_mem {n : Nat} (h : n = 0 ∨ 256 < n) (s : State) :
    exec (.encData n) s = .next { s with operr := .errLength } :=
  withCount_of_not_mem (h.imp_left Nat.lt_one_iff.mpr)

theorem exec_encHeader (s : State) :
    exec .encHeader s = buildFrame 2 (headerPayload s.arg0 s.arg1) (crcFixed16 (headerPayload s.arg0 s.arg1)) s := rfl

theorem exec_encBulkHeader (s : State) :
    exec .encBulkHeader s = buildFrame 3 (bulkHeaderPayload s.arg0) (crcFixed16 (bulkHeaderPayload s.arg0)) s := rfl

/-- A command that builds a frame whose payload fits OBUF has the effects of R141. -/
theorem specEncoded_of_buildFrame {i : Instr} {s : State} {t : Byte} {p : List Byte} {c : Word}
    (hexec : exec i s = buildFrame t p c s) (hp : p.length ≤ 256) : specEncoded i s (frame t p c) c := by
  have hlen : (frame t p c).length ≤ 266 := by rw [frame_length]; omega
  exact .intro (putFrame (frame t p c) c s).mem ⟨hexec.trans (buildFrame_eq t p c s), putFrame_read hlen c s⟩

/-! ### The bytes of a frame -/

/-- The two bytes of a 16-bit length field, by their values (R8). -/
theorem le16_ofNat (n : Nat) : le16 (BitVec.ofNat 16 n) = [BitVec.ofNat 8 n, BitVec.ofNat 8 (n / 256)] := by
  have hlo : (BitVec.ofNat 16 n).extractLsb' 0 8 = BitVec.ofNat 8 n := by
    apply BitVec.eq_of_toNat_eq
    simp only [BitVec.extractLsb'_toNat, BitVec.toNat_ofNat, Nat.shiftRight_zero]
    omega
  have hhi : (BitVec.ofNat 16 n).extractLsb' 8 8 = BitVec.ofNat 8 (n / 256) := by
    apply BitVec.eq_of_toNat_eq
    simp only [BitVec.extractLsb'_toNat, BitVec.toNat_ofNat, Nat.shiftRight_eq_div_pow]
    omega
  rw [le16, hlo, hhi]

/-- The layout of R78 with the constants of R5 and the length field's bytes written out. -/
theorem frame_of_length {p : List Byte} {n : Nat} (h : p.length = n) (t : Byte) (c : Word) :
    frame t p c = [0x24, t, BitVec.ofNat 8 n, BitVec.ofNat 8 (n / 256)] ++ p ++ le32 c ++ [0x0D, 0x0A] := by
  rw [frame, h, le16_ofNat]
  rfl

theorem frame_command (b : Byte) (c : Word) :
    frame 0 [b] c = [0x24, 0x00, 0x01, 0x00, b] ++ le32 c ++ [0x0D, 0x0A] :=
  frame_of_length (n := 1) rfl 0 c

theorem frame_header (size crc c : Word) :
    frame 2 (headerPayload size crc) c =
      [0x24, 0x02, 0x10, 0x00] ++ le32 size ++ le32 crc ++ [0, 0, 0, 0, 0, 0, 0, 0] ++ le32 c ++ [0x0D, 0x0A] :=
  frame_of_length (n := 16) rfl 2 c

theorem frame_bulkHeader (crc c : Word) :
    frame 3 (bulkHeaderPayload crc) c = [0x24, 0x03, 0x04, 0x00] ++ le32 crc ++ le32 c ++ [0x0D, 0x0A] :=
  frame_of_length (n := 4) rfl 3 c

/-! ### The CRC field of a frame -/

/-- A sequence that fits the 16-byte window is padded to it (R106). -/
theorem crcFixed16_of_le {p : List Byte} (h : p.length ≤ 16) :
    crcFixed16 p = crcRaw (p ++ zeros (16 - p.length)) 0xFFFFFFFF :=
  congrArg (crcRaw · Config.crcInit) (window_of_le h)

theorem crcFixedDatapack_load {n : Nat} (h : n ≤ 256) (m : Memory) (lo : Nat) :
    crcFixedDatapack (m.load lo n) = crcRaw (m.load lo n ++ zeros (256 - n)) 0xFFFFFFFF :=
  congrArg (crcRaw · Config.crcInit) (window_load_of_le h m lo)

/-- The header payload fills its window, so nothing is padded (R82, R144). -/
theorem crcFixed16_headerPayload (size crc : Word) :
    crcFixed16 (headerPayload size crc) = crcRaw (le32 size ++ le32 crc ++ zeros 8) 0xFFFFFFFF :=
  crcFixed16_of_le (Nat.le_refl 16)

theorem crcFixed16_bulkHeaderPayload (crc : Word) :
    crcFixed16 (bulkHeaderPayload crc) = crcRaw (le32 crc ++ zeros 12) 0xFFFFFFFF :=
  crcFixed16_of_le (p := le32 crc) (by simp)

/-! ### The obligations -/

/-- Settles O32: B = 0 and B = 1 build the frame, every other byte is refused. -/
theorem encCommandBuildsFrame : Obligations.EncCommandBuildsFrame := by
  unfold Obligations.EncCommandBuildsFrame
  refine ⟨fun w h => decodeWord_of_mask (op := 0x10) h rfl, fun b s h => ?built,
    fun b s h => exec_encCommand_of_gt h s, by decide +kernel⟩
  case built =>
    have hbuild := specEncoded_of_buildFrame (exec_encCommand_of_le h s) (by decide : 1 ≤ 256)
    rw [frame_command, crcCommand_eq_crcRaw] at hbuild
    exact hbuild

/-- Settles O33: the length field is the number of bytes loaded from IBUF, and the CRC window pads them. -/
theorem encDataBuildsFrame : Obligations.EncDataBuildsFrame := by
  unfold Obligations.EncDataBuildsFrame
  refine ⟨fun w h => decodeWord_of_mask (op := 0x11) h rfl, fun n s h1 h256 => ?built,
    fun n s h => exec_encData_of_not_mem h s, by decide +kernel⟩
  case built =>
    have hbuild := specEncoded_of_buildFrame (exec_encData_of_mem ⟨h1, h256⟩ s) (by rwa [load_length])
    rw [frame_of_length (load_length ..), crcFixedDatapack_load h256] at hbuild
    exact hbuild

/-- Settles O34: the frame of the 16-byte payload made of ARG0, ARG1 and the reserved words. -/
theorem encHeaderBuildsFrame : Obligations.EncHeaderBuildsFrame := by
  unfold Obligations.EncHeaderBuildsFrame
  refine ⟨fun w h => decodeWord_of_mask (op := 0x12) h rfl, fun s => ?built, by decide +kernel⟩
  case built =>
    have hbuild := specEncoded_of_buildFrame (exec_encHeader s) (by decide : 16 ≤ 256)
    rw [frame_header, crcFixed16_headerPayload] at hbuild
    exact hbuild

/-- Settles O35: the frame of the 4-byte payload ARG0, whose CRC window ends in 12 zeros. -/
theorem encBulkHeaderBuildsFrame : Obligations.EncBulkHeaderBuildsFrame := by
  unfold Obligations.EncBulkHeaderBuildsFrame
  refine ⟨fun w h => decodeWord_of_mask (op := 0x13) h rfl, fun s => ?built, by decide +kernel⟩
  case built =>
    have hbuild := specEncoded_of_buildFrame (exec_encBulkHeader s) (by decide : 4 ≤ 256)
    rw [frame_bulkHeader, crcFixed16_bulkHeaderPayload] at hbuild
    exact hbuild

end Sys2Proof.Machine
end

section
/-! PROOFS. The decoder commands (42_decode.md R170 to R180): the outcome of DEC_RESET, and the outcome of DEC_BYTE in
each state of the decoder, from the transition lemmas of `Laws/Decoder.lean`. -/

namespace Sys2Proof.Machine

/-! ### What the commands answer -/

theorem exec_decReset (s : State) :
    exec .decReset s = .next { clearDecoder s with devent := .noEvent, dstate := .hunt, operr := .ok } := rfl

theorem exec_decByte (b : Byte) (s : State) :
    exec (.decByte b) s = .next { decTransition b s with operr := .ok } := rfl

/-! ### Counts and CRC values the transitions use -/

/-- A count of DBUF bytes below 256 does not wrap when it grows, for DCNT has 9 bits (R33). -/
theorem dcnt_succ_toNat {s : State} (h : s.dcnt.toNat < 256) : (s.dcnt + 1).toNat = s.dcnt.toNat + 1 :=
  BitVec.toNat_add_of_lt (Nat.lt_of_le_of_lt h (by decide))

theorem dcrcWith_zero (b : Byte) (s : State) : dcrcWith 0 b s = s.dcrc ||| b.zeroExtend 32 :=
  congrArg (s.dcrc ||| ·) (BitVec.shiftLeft_zero _)

/-- The decoder's own CRC is the one of the received payload with the window of DTYPE (R80, R178). -/
theorem computedCrc_eq {s : State} {own : Word}
    (h : (s.dtype = 0 ∧ own = crcCommand (byteAt (s.mem.load 0x400 s.dlen.toNat) 0)) ∨
      (s.dtype = 1 ∧ own = crcFixedDatapack (s.mem.load 0x400 s.dlen.toNat)) ∨
      ((s.dtype = 2 ∨ s.dtype = 3) ∧ own = crcFixed16 (s.mem.load 0x400 s.dlen.toNat))) : computedCrc s = own := by
  obtain ⟨ht, rfl⟩ | ⟨ht, rfl⟩ | ⟨ht | ht, rfl⟩ := h <;> rw [computedCrc, ht]
  · exact typeCrc_command _
  · exact typeCrc_data _
  · exact typeCrc_header _
  · exact typeCrc_bulkHeader _

/-! ### The obligations -/

/-- Settles O40: the cleared DBUF is the memory of `clearDecoder`, read one byte at a time. -/
theorem decResetClearsDecoder : Obligations.DecResetClearsDecoder := by
  unfold Obligations.DecResetClearsDecoder
  exact ⟨fun w h => decodeWord_of_mask (op := 0x20) h rfl,
    fun s => ⟨(clearDecoder s).mem, exec_decReset s, clearDecoder_read s⟩⟩

/-- Settles O42: the byte is SOF, which clears the decoder, or noise. -/
theorem decByteInHunt : Obligations.DecByteInHunt := by
  unfold Obligations.DecByteInHunt
  refine fun b s hs => ⟨fun hb => ?noise, fun hb => ⟨(clearDecoder s).mem, ?sof, clearDecoder_read s⟩⟩
  case noise => rw [exec_decByte, decTransition_hunt hs, decHunt_noise s hb]
  case sof => rw [exec_decByte, decTransition_hunt hs, hb, decHunt_sof]; rfl

/-- Settles O43: a known type, the reserved Response type, or an unknown one. -/
theorem decByteInType : Obligations.DecByteInType := by
  unfold Obligations.DecByteInType
  refine fun b s hs => ⟨fun hb => ?known, fun hb => ?response, fun hb => ?unknown⟩ <;>
    rw [exec_decByte, decTransition_typ hs]
  case known => rw [decType_known s hb]
  case response =>
    obtain rfl : b = 4 := BitVec.eq_of_toNat_eq hb
    rw [decType_response]; rfl
  case unknown => rw [decType_unknown s hb]; rfl

/-- Settles O44: the model's length check is the table of R175 by `legalLength_iff`. -/
theorem decByteInLength : Obligations.DecByteInLength := by
  unfold Obligations.DecByteInLength
  refine fun b s => ⟨fun hs => ?low, ?high⟩
  case low => rw [exec_decByte, decTransition_lenLo hs, decLenLo]
  case high =>
    rintro hs l rfl
    rw [exec_decByte, decTransition_lenHi hs]
    refine ⟨fun hl => ?legal, fun hl => ?illegal⟩
    case legal => rw [decLenHi_legal ((legalLength_iff _ _).mpr hl)]; rfl
    case illegal => rw [decLenHi_illegal (Bool.eq_false_iff.mpr (mt (legalLength_iff _ _).mp hl))]; rfl

/-- Settles O45: DCNT below 256 is an index of DBUF, and it grows without wrapping. -/
theorem decByteInPayload : Obligations.DecByteInPayload := by
  unfold Obligations.DecByteInPayload
  intro b s hs hcnt
  rw [← dcnt_succ_toNat hcnt, exec_decByte, decTransition_payload hs]
  refine ⟨putDbuf s.mem s.dcnt.toNat b, ⟨fun hlast => ?last, fun hmore => ?more⟩, putDbuf_read hcnt s.mem b⟩
  case last => rw [decPayload_last hlast]
  case more => rw [decPayload_more hmore, ← hs]

/-- Settles O46: the three states add byte 0, 1 and 2 of the field to DCRC. -/
theorem decByteInCrcField : Obligations.DecByteInCrcField := by
  unfold Obligations.DecByteInCrcField
  refine fun b s => ⟨fun hs => ?crc0, fun hs => ?crc1, fun hs => ?crc2⟩
  case crc0 => rw [exec_decByte, decTransition_crc0 hs, decCrcByte, dcrcWith_zero]
  case crc1 => rw [exec_decByte, decTransition_crc1 hs]; rfl
  case crc2 => rw [exec_decByte, decTransition_crc2 hs]; rfl

/-- Settles O47: the CRC the decoder compares with the field is `own`, by `computedCrc_eq`. -/
theorem decByteInCrc3 : Obligations.DecByteInCrc3 := by
  unfold Obligations.DecByteInCrc3
  intro b s own hs hown
  obtain rfl := computedCrc_eq hown
  rw [exec_decByte, decTransition_crc3 hs]
  refine ⟨fun hcrc => ?agrees, fun hcrc => ?differs⟩
  case agrees => rw [decCrc3_agrees hcrc]; rfl
  case differs => rw [decCrc3_differs hcrc]; rfl

/-- Settles O48: in each of the two states the byte is the expected terminator or an error. -/
theorem decByteInTerminator : Obligations.DecByteInTerminator := by
  unfold Obligations.DecByteInTerminator
  refine fun b s => ⟨fun hs => ?cr, fun hs => ?lf⟩
  case cr =>
    rw [exec_decByte, decTransition_cr hs]
    refine ⟨fun hb => ?term, fun hb => ?other⟩
    case term => rw [hb, decCr_term]
    case other => rw [decCr_other s hb]; rfl
  case lf =>
    rw [exec_decByte, decTransition_lf hs]
    refine ⟨fun hb => ?term, fun hb => ?other⟩
    case term => rw [hb, decLf_term]
    case other => rw [decLf_other s hb]; rfl

end Sys2Proof.Machine
end

section
/-! PROOFS. The codes a CMD write sets OPERR to (60_exceptions.md R211 to R216): each command's own check, what a
command leaves when it fails, and the order of the checks of one command word. -/

namespace Sys2Proof.Machine

/-! ### A command's own check -/

/-- The code of a command's own check on N or B, the last check of R216; `.ok` where it passes or there is none. -/
def ownCheck : Instr → OpErr
  | .crcUpdate n | .crcFull n | .crcFixed16 n | .crcDatapack n => if 256 < n then .errLength else .ok
  | .encData n => if n = 0 ∨ 256 < n then .errLength else .ok
  | .encCommand b => if 1 < b.toNat then .errArg else .ok
  | .crcInit | .crcByte _ | .crcWord | .crcCommand _ | .encHeader | .encBulkHeader | .decReset | .decByte _ => .ok

/-- The outcome `o` of a command run from `s` completes with the code `code`, and changes nothing but OPERR if that
is an error (R211, R212). -/
def CompletesWith (code : OpErr) (s : State) (o : Outcome) : Prop :=
  ∃ t, o = .next t ∧ t.operr = code ∧ (t.operr ≠ .ok → t = { s with operr := t.operr })

theorem completesWith_ok {s t : State} {o : Outcome} (h : o = .next t) (ht : t.operr = .ok) :
    CompletesWith .ok s o :=
  ⟨t, h, ht, fun herr => absurd ht herr⟩

theorem completesWith_error {code : OpErr} {s : State} {o : Outcome} (h : o = .next { s with operr := code }) :
    CompletesWith code s o :=
  ⟨_, h, rfl, fun _ => rfl⟩

/-- A check that guards a command: the command's error where it fails, its success where it passes. -/
theorem completesWith_ite {p : Prop} [Decidable p] {code : OpErr} {s : State} {o : Outcome}
    (hfail : p → o = .next { s with operr := code }) (hpass : ¬ p → ∃ t, o = .next t ∧ t.operr = .ok) :
    CompletesWith (if p then code else .ok) s o := by
  split
  case isTrue h => exact completesWith_error (hfail h)
  case isFalse h =>
    obtain ⟨t, hnext, ht⟩ := hpass h
    exact completesWith_ok hnext ht

/-- Every command completes with the code of its own check. -/
theorem exec_completesWith (i : Instr) (s : State) : CompletesWith (ownCheck i) s (exec i s) := by
  cases i with
  | crcInit => exact completesWith_ok (exec_crcInit s) rfl
  | crcByte b => exact completesWith_ok (exec_crcByte b s) rfl
  | crcWord => exact completesWith_ok (exec_crcWord s) rfl
  | crcUpdate n =>
    exact completesWith_ite (exec_crcCount_of_gt · s (.inl rfl))
      fun h => ⟨_, exec_crcUpdate_of_le (Nat.not_lt.mp h) s, rfl⟩
  | crcFull n =>
    exact completesWith_ite (exec_crcCount_of_gt · s (.inr (.inl rfl)))
      fun h => ⟨_, exec_crcFull_of_le (Nat.not_lt.mp h) s, rfl⟩
  | crcFixed16 n =>
    exact completesWith_ite (exec_crcCount_of_gt · s (.inr (.inr (.inl rfl))))
      fun h => ⟨_, exec_crcFixed16_of_le (Nat.not_lt.mp h) s, rfl⟩
  | crcDatapack n =>
    exact completesWith_ite (exec_crcCount_of_gt · s (.inr (.inr (.inr rfl))))
      fun h => ⟨_, exec_crcDatapack_of_le (Nat.not_lt.mp h) s, rfl⟩
  | crcCommand b => exact completesWith_ok (exec_crcCommand b s) rfl
  | encCommand b =>
    exact completesWith_ite (exec_encCommand_of_gt · s)
      fun h => ⟨_, (exec_encCommand_of_le (Nat.not_lt.mp h) s).trans (buildFrame_eq ..), rfl⟩
  | encData n =>
    exact completesWith_ite (exec_encData_of_not_mem · s)
      fun h => ⟨_, (exec_encData_of_mem (by omega) s).trans (buildFrame_eq ..), rfl⟩
  | encHeader => exact completesWith_ok ((exec_encHeader s).trans (buildFrame_eq ..)) rfl
  | encBulkHeader => exact completesWith_ok ((exec_encBulkHeader s).trans (buildFrame_eq ..)) rfl
  | decReset => exact completesWith_ok (exec_decReset s) rfl
  | decByte b => exact completesWith_ok (exec_decByte b s) rfl

/-! ### The checks of one command word -/

theorem specOperr_of_rsv_ne_zero {rsv : Nat} (h : rsv ≠ 0) (op b n : Nat) : specOperr rsv op b n = .errOpcode :=
  if_pos h

/-- With RSV zero the code is that of the command the opcode map selects, or ERR_OPCODE if it selects none. -/
theorem specOperr_of_rsv_zero (op b : Byte) (n : Nat) :
    specOperr 0 op.toNat b.toNat n = ((opcodeMap op b n).map ownCheck).getD .errOpcode := by
  unfold opcodeMap
  split
  case h_15 => simp_all [specOperr, specOpcodes]
  all_goals
    next hop => simp [specOperr, specOpcodes, ownCheck, hop]

/-- `Issue(w)` completes with the code of the first check that fails, in the order RSV, OP, the command's own. -/
theorem issue_completesWith (w : Word) (s : State) :
    CompletesWith (specOperr (fieldRsv w).toNat (fieldOp w).toNat (fieldB w).toNat (fieldN w).toNat) s
      (issue w s) := by
  by_cases hrsv : fieldRsv w = 0
  case neg =>
    rw [specOperr_of_rsv_ne_zero fun hzero => hrsv (BitVec.eq_of_toNat_eq hzero)]
    exact completesWith_error (issue_of_decodeWord_error (decodeWord_of_rsv_ne_zero hrsv) s)
  have hzero : (fieldRsv w).toNat = 0 := congrArg BitVec.toNat hrsv
  rw [hzero, specOperr_of_rsv_zero]
  cases hop : opcodeMap (fieldOp w) (fieldB w) (fieldN w).toNat with
  | none => exact completesWith_error (issue_of_decodeWord_error (decodeWord_of_opcodeMap_none hrsv hop) s)
  | some i =>
    have hdecode : decodeWord w = .ok i := by rw [decodeWord, if_neg (not_not_intro hrsv), hop]
    rw [issue, hdecode]
    exact exec_completesWith i s

/-! ### The obligations -/

/-- Settles O55: the step is `Issue(w)` on the state that holds `w` in CMD, and `issue_completesWith` names its code. -/
theorem firstFailingCheckDecidesOperr : Obligations.FirstFailingCheckDecidesOperr := by
  unfold Obligations.FirstFailingCheckDecidesOperr
  intro w s rest hpending
  rw [step_of_cmd_write hpending]
  obtain ⟨t, hnext, hcode, -⟩ := issue_completesWith w { s with cmd := w, pending := rest, readData := none }
  exact ⟨t, hnext, hcode⟩

/-- Settles O54: an error code is the only change `Issue(w)` makes to the state that holds `w` in CMD. -/
theorem commandErrorChangesOnlyOperr : Obligations.CommandErrorChangesOnlyOperr := by
  unfold Obligations.CommandErrorChangesOnlyOperr
  intro w s t rest hpending hstep herr
  rw [step_of_cmd_write hpending] at hstep
  obtain ⟨u, hnext, -, honly⟩ := issue_completesWith w { s with cmd := w, pending := rest, readData := none }
  cases hnext.symm.trans hstep
  exact honly herr

end Sys2Proof.Machine
end

section
/-! PROOFS. The host's accesses (20_memory.md R51, R52, 60_exceptions.md R218): the window map by the offsets and
widths the spec lists, the check that decides each access, and the step that takes it. -/

namespace Sys2Proof.Machine

/-! ### The window map by offset -/

theorem regionAt_of_not_specMapped {off : Nat} (h : ¬ specMapped off) : regionAt off = none := by
  unfold specMapped at h
  by_cases hbeyond : 0x500 ≤ off
  · exact regionAt_beyond hbeyond
  · exact regionAt_unmapped_below off (by omega) (by omega)

/-- The row `r` allows at the offset `off` the widths and the writes the spec lists for it (R51). -/
def AllowsAsSpec (r : Region) (off : Nat) : Prop :=
  (∀ n, n ∈ r.widths ↔ specWidth off n) ∧ (r.writable = true ↔ specWritable off)

theorem regionAt_register_writable : ∀ off < 0x02C, ∀ r ∈ regionAt off,
    (r.writable = true ↔ off < 0x004 ∨ (0x008 ≤ off ∧ off < 0x010)) := by
  decide +kernel

theorem register_allowsAsSpec {off : Nat} (hoff : off < 0x02C) {r : Region} (hr : regionAt off = some r)
    (hwidths : r.widths = [4]) : AllowsAsSpec r off := by
  have hwritable := regionAt_register_writable off hoff r hr
  refine ⟨fun n => ?_, ?_⟩
  · rw [hwidths, List.mem_singleton, specWidth]; omega
  · rw [hwritable, specWritable]; omega

theorem buffer_allowsAsSpec {off : Nat} (hoff : 0x100 ≤ off) (loc : Loc) (base size : Nat) {writable : Bool}
    (hwritable : writable = true ↔ off < 0x200) : AllowsAsSpec (bufferRow loc base size writable) off := by
  refine ⟨fun n => ?_, ?_⟩
  · simp only [bufferRow, List.mem_cons, List.not_mem_nil, or_false, specWidth]; omega
  · simp only [bufferRow, hwritable, specWritable]; omega

/-- Every mapped offset has a row, and the row allows what the spec lists. -/
theorem regionAt_of_specMapped {off : Nat} (h : specMapped off) :
    ∃ r, regionAt off = some r ∧ AllowsAsSpec r off := by
  obtain hreg | ⟨hlo, hhi⟩ | ⟨hlo, hhi⟩ | ⟨hlo, hhi⟩ := h
  case inl =>
    obtain ⟨r, hr, hwidths, -⟩ := regionAt_register off hreg
    exact ⟨r, hr, register_allowsAsSpec hreg hr hwidths⟩
  case inr.inl =>
    exact ⟨_, regionAt_ibuf off (by omega) hlo hhi, buffer_allowsAsSpec hlo _ _ _ (iff_of_true rfl hhi)⟩
  case inr.inr.inl =>
    by_cases hpad : off < 0x30A
    · exact ⟨_, regionAt_obuf off (by omega) hlo hpad,
        buffer_allowsAsSpec (by omega) _ _ _ (iff_of_false Bool.false_ne_true (by omega))⟩
    · exact ⟨_, regionAt_obufPad off (by omega) (by omega) hhi,
        buffer_allowsAsSpec (by omega) _ _ _ (iff_of_false Bool.false_ne_true (by omega))⟩
  case inr.inr.inr =>
    exact ⟨_, regionAt_dbuf off hhi hlo,
      buffer_allowsAsSpec (by omega) _ _ _ (iff_of_false Bool.false_ne_true (by omega))⟩

/-! ### The check that decides an access -/

theorem busCheck_unmapped {off : Nat} (hmap : ¬ specMapped off) (n : Nat) (wr : Bool) :
    busCheck off n wr = .error .unmapped := by
  rw [busCheck, regionAt_of_not_specMapped hmap]

theorem busCheck_width {off n : Nat} (hmap : specMapped off) (hwidth : ¬ specWidth off n) (wr : Bool) :
    busCheck off n wr = .error .width := by
  obtain ⟨r, hr, hwidths, -⟩ := regionAt_of_specMapped hmap
  simp [busCheck, hr, hwidths, hwidth]

theorem busCheck_align {off n : Nat} (hmap : specMapped off) (hwidth : specWidth off n) (hn : n = 4)
    (halign : off % 4 ≠ 0) (wr : Bool) : busCheck off n wr = .error .align := by
  obtain ⟨r, hr, hwidths, -⟩ := regionAt_of_specMapped hmap
  have hmem := (hwidths n).mpr hwidth
  subst hn
  simp [busCheck, hr, hmem, halign]

theorem busCheck_readonly {off n : Nat} (hmap : specMapped off) (hwidth : specWidth off n)
    (halign : n = 4 → off % 4 = 0) (hwrite : ¬ specWritable off) : busCheck off n true = .error .readonly := by
  obtain ⟨r, hr, hwidths, hwritable⟩ := regionAt_of_specMapped hmap
  have hmem := (hwidths n).mpr hwidth
  have hro : r.writable = false := Bool.eq_false_iff.mpr (mt hwritable.mp hwrite)
  simpa [busCheck, hr, hmem, hro] using halign

theorem busCheck_passes {off n : Nat} {wr : Bool} (hmap : specMapped off) (hwidth : specWidth off n)
    (halign : n = 4 → off % 4 = 0) (hwrite : wr = true → specWritable off) : ∃ r, busCheck off n wr = .ok r := by
  obtain ⟨r, hr, hwidths, hwritable⟩ := regionAt_of_specMapped hmap
  exact ⟨r, busCheck_of_ok hr ((hwidths n).mpr hwidth) halign fun h => hwritable.mpr (hwrite h)⟩

/-! ### The step that takes an access -/

theorem step_of_pending {s : State} {e : HostEvent} {rest : List HostEvent} (h : s.pending = e :: rest) :
    step s = takeEvent e rest s := by
  rw [step, h]

theorem step_of_read {s : State} {off n : Nat} {rest : List HostEvent} {r : Region}
    (hpending : s.pending = .read off n :: rest) (hcheck : busCheck off n false = .ok r) :
    step s = .next (endEvent s rest (some (locRead s r.loc off n))) := by
  rw [step_of_pending hpending, takeEvent, memRead, hcheck]

theorem step_of_read_error {s : State} {off n : Nat} {rest : List HostEvent} {k : BusErrorKind}
    (hpending : s.pending = .read off n :: rest) (hcheck : busCheck off n false = .error k) :
    step s = .fault (.busError k) := by
  simp only [step_of_pending hpending, takeEvent, memRead, hcheck, raiseBusError]

theorem step_of_write_error {s : State} {off n : Nat} {v : Word} {rest : List HostEvent} {k : BusErrorKind}
    (hpending : s.pending = .write off n v :: rest) (hcheck : busCheck off n true = .error k) :
    step s = .fault (.busError k) := by
  simp only [step_of_pending hpending, takeEvent, memWrite, hcheck, raiseBusError]

/-- An access that fails a check is the host's fault, whichever way it goes (R56, R215). -/
theorem step_of_busError {s : State} {off n : Nat} {v : Word} {rest : List HostEvent} {k : BusErrorKind}
    (hpending : s.pending = .read off n :: rest ∨ s.pending = .write off n v :: rest)
    (hcheck : ∀ wr, busCheck off n wr = .error k) : step s = .fault (.busError k) := by
  obtain hpending | hpending := hpending
  · exact step_of_read_error hpending (hcheck false)
  · exact step_of_write_error hpending (hcheck true)

/-- A write that passes the checks stores its value; one to CMD also runs the command, which always completes. -/
theorem step_of_write_completes {s : State} {off n : Nat} {v : Word} {rest : List HostEvent} {r : Region}
    (hpending : s.pending = .write off n v :: rest) (hcheck : busCheck off n true = .ok r) :
    ∃ t, step s = .next t := by
  simp only [step_of_pending hpending, takeEvent, memWrite, hcheck]
  by_cases hcmd : r.loc = .cmd
  case pos =>
    obtain ⟨t, hnext, -⟩ := issue_completesWith v (locWrite (endEvent s rest none) r.loc off n v)
    rw [if_pos hcmd]
    exact ⟨t, hnext⟩
  case neg =>
    rw [if_neg hcmd]
    exact ⟨_, rfl⟩

/-! ### The obligation -/

/-- Settles O7: one `busCheck` lemma for each kind of BusError, and the steps that take an access that passes. -/
theorem hostAccessChecksInOrder : Obligations.HostAccessChecksInOrder := by
  unfold Obligations.HostAccessChecksInOrder
  refine fun s off n v rest => ⟨fun hpending => ⟨?unmapped, ?width, ?align⟩,
    fun hpending => ⟨?readonly, ?writes⟩, ?reads⟩
  case unmapped => exact fun hmap => step_of_busError hpending (busCheck_unmapped hmap n)
  case width => exact fun hmap hwidth => step_of_busError hpending (busCheck_width hmap hwidth)
  case align => exact fun hmap hwidth hn halign => step_of_busError hpending (busCheck_align hmap hwidth hn halign)
  case readonly =>
    exact fun hmap hwidth halign hwrite => step_of_write_error hpending (busCheck_readonly hmap hwidth halign hwrite)
  case writes =>
    intro hmap hwidth halign hwrite
    obtain ⟨r, hcheck⟩ := busCheck_passes hmap hwidth halign fun _ => hwrite
    exact step_of_write_completes hpending hcheck
  case reads =>
    intro hpending hmap hwidth halign
    obtain ⟨r, hcheck⟩ := busCheck_passes (wr := false) hmap hwidth halign (fun h => nomatch h)
    exact ⟨_, step_of_read hpending hcheck⟩

end Sys2Proof.Machine
end

section
/-! PROOFS. The opcode map read both ways (30_encoding.md R70 to R76): the round trip of a command through its word and
its bytes, and the word mask R73 of every row. -/

namespace Sys2Proof

open Machine

/-- The four byte lanes of a word decode as the word does, and the bytes after them stay (R53, R75). -/
theorem decodeBytes_lanesOf {w : Word} {i : Instr} (h : decodeWord w = .ok i) (rest : List Byte) :
    decodeBytes (lanesOf w ++ rest) = .ok (i, rest) := by
  simp only [lanesOf, List.cons_append, List.nil_append, decodeBytes, wordOfLanes_lanes, h]

/-- Settles O1: the round trip through the word, and the bytes of the word put together again. -/
theorem decodeOfEncodedCommand : Obligations.DecodeOfEncodedCommand := by
  unfold Obligations.DecodeOfEncodedCommand
  intro i rest hi
  exact ⟨decodeWord_encode hi, decodeBytes_lanesOf (decodeWord_encode hi) rest⟩

/-! ### From the command back to the word -/

/-- A row of the opcode map is selected by its own opcode alone (R73). -/
theorem opcodeOf_of_opcodeMap {op b : Byte} {n : Nat} {i : Instr} (h : opcodeMap op b n = some i) :
    op = opcodeOf i := by
  unfold opcodeMap at h
  split at h
  case h_15 => cases h
  all_goals
    next hop =>
      cases h
      exact BitVec.eq_of_toNat_eq hop

/-- A word that decodes passed the check on RSV and has the opcode of its command (R71). -/
theorem fields_of_decodeWord {w : Word} {i : Instr} (h : decodeWord w = .ok i) :
    fieldRsv w = 0 ∧ fieldOp w = opcodeOf i := by
  unfold decodeWord at h
  split at h
  case isTrue => cases h
  case isFalse hrsv =>
    split at h
    case h_1 hop =>
      cases h
      exact ⟨not_not.mp hrsv, opcodeOf_of_opcodeMap hop⟩
    case h_2 => cases h

/-- The mask of R73 keeps OP and RSV. -/
theorem and_mask_eq (w : Word) : w &&& 0xFE0000FF = fieldRsv w ++ (0 : BitVec 17) ++ fieldOp w := by
  have hword : w = fieldRsv w ++ w.extractLsb' 8 17 ++ fieldOp w := by
    rw [fieldRsv, fieldOp, BitVec.extractLsb'_append_extractLsb'_eq_extractLsb' (show 25 = 8 + 17 from rfl),
      BitVec.extractLsb'_append_extractLsb'_eq_extractLsb' (show 8 = 0 + 8 from rfl)]
    exact BitVec.extractLsb'_eq_self.symm
  have hmask : (0xFE0000FF : Word) = BitVec.allOnes 7 ++ (0 : BitVec 17) ++ BitVec.allOnes 8 := rfl
  calc w &&& 0xFE0000FF
      = (fieldRsv w ++ w.extractLsb' 8 17 ++ fieldOp w) &&&
          (BitVec.allOnes 7 ++ (0 : BitVec 17) ++ BitVec.allOnes 8) := by rw [← hword, hmask]
    _ = fieldRsv w ++ (0 : BitVec 17) ++ fieldOp w := by
      rw [BitVec.and_append, BitVec.and_append, BitVec.and_allOnes, BitVec.and_allOnes]
      exact congrArg (fieldRsv w ++ · ++ fieldOp w) BitVec.and_zero

theorem and_mask_of_decodeWord {w : Word} {i : Instr} (h : decodeWord w = .ok i) :
    w &&& 0xFE0000FF = (opcodeOf i).zeroExtend 32 := by
  obtain ⟨hrsv, hop⟩ := fields_of_decodeWord h
  have hzero : (opcodeOf i).zeroExtend 32 = (0 : BitVec 24) ++ opcodeOf i := BitVec.setWidth_eq_append (by decide)
  rw [and_mask_eq, hrsv, hop, hzero]
  rfl

/-- Settles O2: each row by `decodeWord_of_mask`, and the other direction by the fields of a word that decodes. -/
theorem opcodeMapSelectsByMask : Obligations.OpcodeMapSelectsByMask := by
  unfold Obligations.OpcodeMapSelectsByMask
  intro w
  exact ⟨fun h => decodeWord_of_mask (op := 0x01) h rfl, fun h => decodeWord_of_mask (op := 0x02) h rfl,
    fun h => decodeWord_of_mask (op := 0x03) h rfl, fun h => decodeWord_of_mask (op := 0x04) h rfl,
    fun h => decodeWord_of_mask (op := 0x05) h rfl, fun h => decodeWord_of_mask (op := 0x06) h rfl,
    fun h => decodeWord_of_mask (op := 0x07) h rfl, fun h => decodeWord_of_mask (op := 0x08) h rfl,
    fun h => decodeWord_of_mask (op := 0x10) h rfl, fun h => decodeWord_of_mask (op := 0x11) h rfl,
    fun h => decodeWord_of_mask (op := 0x12) h rfl, fun h => decodeWord_of_mask (op := 0x13) h rfl,
    fun h => decodeWord_of_mask (op := 0x20) h rfl, fun h => decodeWord_of_mask (op := 0x21) h rfl,
    fun _ h => and_mask_of_decodeWord h⟩

/-- Settles O3: each listed word has the bits of its row under the mask R73, and its fields are evaluated. -/
theorem listedWordsDecode : Obligations.ListedWordsDecode := by
  unfold Obligations.ListedWordsDecode
  exact ⟨decodeWord_of_mask (op := 0x02) rfl rfl, decodeWord_of_mask (op := 0x04) rfl rfl,
    decodeWord_of_mask (op := 0x01) rfl rfl, decodeWord_of_mask (op := 0x11) rfl rfl,
    decodeWord_of_mask (op := 0x10) rfl rfl, decodeWord_of_mask (op := 0x21) rfl rfl⟩

end Sys2Proof
end

section
/-! PROOFS. What single host accesses read and store (10_state.md R20 to R34, 20_memory.md R53, R55, R58,
70_reset_and_hazards.md R241): registers, buffer bytes, the operand registers, IBUF, and the reset event. -/

namespace Sys2Proof.Machine

/-! ### Steps that run a command, wait or reset -/

/-- Settles O4: the CMD write stores the word and issues it, and the word decodes to the command. -/
theorem stepRunsDecodedCommand : Obligations.StepRunsDecodedCommand := by
  unfold Obligations.StepRunsDecodedCommand
  intro w i s rest hpending hdecode
  rw [step_of_cmd_write hpending, issue, hdecode]

/-- Settles O6: the first case of `step`. -/
theorem noPendingEventChangesNothing : Obligations.NoPendingEventChangesNothing := by
  unfold Obligations.NoPendingEventChangesNothing
  intro s hpending
  rw [step, hpending]

/-- Settles O13: the reset event leaves the reset state with the later events pending. -/
theorem resetEventGivesResetValues : Obligations.ResetEventGivesResetValues := by
  unfold Obligations.ResetEventGivesResetValues
  intro s rest hpending
  have hstep : step s = .next (resetEvent rest) := step_of_pending hpending
  have hstatus : statusWord State.reset = 0 := by decide
  exact ⟨resetEvent rest, hstep, rfl, rfl, rfl, rfl, hstatus, rfl, rfl, rfl, rfl, rfl, rfl, rfl, rfl, rfl, rfl,
    fun _ => rfl, rfl⟩

/-! ### Registers -/

theorem statusWord_operr (s : State) : (statusWord s).extractLsb' 0 4 = operrCode s.operr :=
  BitVec.extractLsb'_append_eq_right

theorem statusWord_devent (s : State) : (statusWord s).extractLsb' 4 4 = deventCode s.devent :=
  (BitVec.extractLsb'_append_eq_of_le (by decide)).trans BitVec.extractLsb'_append_eq_right

theorem statusWord_dstate (s : State) : (statusWord s).extractLsb' 8 4 = dstateCode s.dstate :=
  (BitVec.extractLsb'_append_eq_of_le (by decide)).trans <|
    (BitVec.extractLsb'_append_eq_of_le (by decide)).trans BitVec.extractLsb'_append_eq_right

theorem statusWord_reserved (s : State) : (statusWord s).extractLsb' 12 20 = 0 :=
  (BitVec.extractLsb'_append_eq_of_le (by decide)).trans <|
    (BitVec.extractLsb'_append_eq_of_le (by decide)).trans BitVec.extractLsb'_append_eq_left

/-- Settles O9: each field holds the code of its value, and every value is checked against its table. -/
theorem statusFieldsHoldTheirCodes : Obligations.StatusFieldsHoldTheirCodes := by
  unfold Obligations.StatusFieldsHoldTheirCodes
  intro s
  rw [statusWord_operr, statusWord_devent, statusWord_dstate]
  refine ⟨statusWord_reserved s, ?operr, ?devent, ?dstate⟩
  case operr => cases s.operr <;> rfl
  case devent => cases s.devent <;> rfl
  case dstate => cases s.dstate <;> rfl

/-- Settles O8: the row of each register passes the checks of R52 for a 32-bit read. -/
theorem registerReadReturnsValue : Obligations.RegisterReadReturnsValue := by
  unfold Obligations.RegisterReadReturnsValue
  intro s rest
  exact ⟨fun h => step_of_read (r := registerRow .cmd 0x000 true) h rfl,
    fun h => ⟨statusWord s, step_of_read (r := registerRow .status 0x004 false) h rfl, statusWord_operr s,
      statusWord_devent s, statusWord_dstate s, statusWord_reserved s⟩,
    fun h => step_of_read (r := registerRow .arg0 0x008 true) h rfl,
    fun h => step_of_read (r := registerRow .arg1 0x00C true) h rfl,
    fun h => step_of_read (r := registerRow .acc 0x010 false) h rfl,
    fun h => step_of_read (r := registerRow .fcrc 0x014 false) h rfl,
    fun h => step_of_read (r := registerRow .olen 0x018 false) h rfl,
    fun h => step_of_read (r := registerRow .dtype 0x01C false) h rfl,
    fun h => step_of_read (r := registerRow .dlen 0x020 false) h rfl,
    fun h => step_of_read (r := registerRow .dcrc 0x024 false) h rfl,
    fun h => step_of_read (r := registerRow .dcalc 0x028 false) h rfl⟩

/-- A write that passes the checks of R52, to a location other than CMD, stores its value and issues nothing. -/
theorem step_of_write_stored {s : State} {off n : Nat} {v : Word} {rest : List HostEvent} {r : Region}
    (hpending : s.pending = .write off n v :: rest) (hcheck : busCheck off n true = .ok r) (hloc : r.loc ≠ .cmd) :
    step s = .next (locWrite (endEvent s rest none) r.loc off n v) := by
  simp only [step_of_pending hpending, takeEvent, memWrite, hcheck, if_neg hloc]

/-- Settles O11: the rows of ARG0 and ARG1 are writable, and the write stores the whole word. -/
theorem operandRegisterWriteStoresValue : Obligations.OperandRegisterWriteStoresValue := by
  unfold Obligations.OperandRegisterWriteStoresValue
  intro s v rest
  exact ⟨fun h => step_of_write_stored (r := registerRow .arg0 0x008 true) h rfl nofun,
    fun h => step_of_write_stored (r := registerRow .arg1 0x00C true) h rfl nofun⟩

/-! ### Buffer reads -/

theorem windowByte_eq_specBufferByte (s : State) (off : Nat) : windowByte s off = specBufferByte s off := by
  have hpad : (off = 0x30A ∨ off = 0x30B) ↔ 0x30A ≤ off ∧ off < 0x30C := by omega
  simp only [windowByte, specBufferByte, hpad]

/-- Every mapped offset from 0x100 on is in a row that reads buffer bytes (R51). -/
theorem regionAt_buffer {off : Nat} (hmap : specMapped off) (hoff : 0x100 ≤ off) : ∃ r, regionAt off = some r ∧
    r.widths = [1, 4] ∧ ∀ (s : State) (n : Nat), locRead s r.loc off n = bufferRead s off n := by
  obtain hreg | ⟨hlo, hhi⟩ | ⟨hlo, hhi⟩ | ⟨hlo, hhi⟩ := hmap
  case inl => omega
  case inr.inl => exact ⟨_, regionAt_ibuf off (by omega) hlo hhi, rfl, fun _ _ => rfl⟩
  case inr.inr.inl =>
    by_cases hpad : off < 0x30A
    · exact ⟨_, regionAt_obuf off (by omega) hlo hpad, rfl, fun _ _ => rfl⟩
    · exact ⟨_, regionAt_obufPad off (by omega) (by omega) hhi, rfl, fun _ _ => rfl⟩
  case inr.inr.inr => exact ⟨_, regionAt_dbuf off hhi hlo, rfl, fun _ _ => rfl⟩

/-- A buffer read of an allowed width and alignment returns the buffer bytes and changes nothing in the block. -/
theorem step_of_buffer_read {s : State} {off n : Nat} {rest : List HostEvent} (hmap : specMapped off)
    (hoff : 0x100 ≤ off) (hpending : s.pending = .read off n :: rest) (hn : n = 1 ∨ n = 4)
    (halign : n = 4 → off % 4 = 0) :
    step s = .next { s with pending := rest, readData := some (bufferRead s off n) } := by
  obtain ⟨r, hregion, hwidths, hread⟩ := regionAt_buffer hmap hoff
  have hcheck : busCheck off n false = .ok r :=
    busCheck_of_ok hregion (by rw [hwidths]; simpa using hn) halign nofun
  rw [step_of_read hpending hcheck, hread]
  rfl

/-- Byte lane `j` of a 32-bit buffer read is the byte at the offset + `j` (R53). -/
theorem bufferRead_lane (s : State) (off : Nat) {j : Nat} (hj : j < 4) :
    (bufferRead s off 4).extractLsb' (8 * j) 8 = windowByte s (off + j) := by
  obtain rfl | rfl | rfl | rfl : j = 0 ∨ j = 1 ∨ j = 2 ∨ j = 3 := by omega
  · exact be32_byte3 ..
  · exact be32_byte2 ..
  · exact be32_byte1 ..
  · exact be32_byte0 ..

/-- Settles O10: the value a buffer read returns, and its byte lanes. -/
theorem bufferReadIsLittleEndian : Obligations.BufferReadIsLittleEndian := by
  unfold Obligations.BufferReadIsLittleEndian
  intro s off rest hmap hoff
  refine ⟨fun hpending => ?byte, fun hpending halign => ?word⟩
  case byte =>
    rw [step_of_buffer_read hmap hoff hpending (.inl rfl) nofun, ← windowByte_eq_specBufferByte]
    rfl
  case word =>
    refine ⟨bufferRead s off 4, step_of_buffer_read hmap hoff hpending (.inr rfl) fun _ => halign, fun j hj => ?_⟩
    rw [bufferRead_lane s off hj, windowByte_eq_specBufferByte]

/-! ### IBUF writes -/

/-- A write to IBUF of an allowed width and alignment stores its bytes and changes nothing else (R55). -/
theorem step_of_ibuf_write {s : State} {off n : Nat} {v : Word} {rest : List HostEvent}
    (hpending : s.pending = .write off n v :: rest) (hlo : 0x100 ≤ off) (hhi : off < 0x200) (hn : n = 1 ∨ n = 4)
    (halign : n = 4 → off % 4 = 0) :
    step s = .next { s with mem := s.mem.store off (writtenBytes n v), pending := rest, readData := none } := by
  have hcheck : busCheck off n true = .ok (bufferRow .ibuf ibufBase Config.ibufSize true) :=
    busCheck_of_ok (regionAt_ibuf off (by omega) hlo hhi) (by simpa [bufferRow] using hn) halign fun _ => rfl
  exact step_of_write_stored hpending hcheck nofun

/-- Byte `j` of a word as its little-endian sequence has it (R8). -/
theorem le32_getD (v : Word) {j : Nat} (hj : j < 4) : (le32 v).getD j 0 = v.extractLsb' (8 * j) 8 := by
  obtain rfl | rfl | rfl | rfl : j = 0 ∨ j = 1 ∨ j = 2 ∨ j = 3 := by omega
  all_goals rfl

/-- Settles O12: the stored bytes read back, and every other byte reads as before. -/
theorem ibufWriteChangesItsBytesOnly : Obligations.IbufWriteChangesItsBytesOnly := by
  unfold Obligations.IbufWriteChangesItsBytesOnly
  intro s off v rest hlo hhi
  refine ⟨fun hpending => ⟨_, step_of_ibuf_write hpending hlo hhi (.inl rfl) nofun, fun a => ?byte⟩,
    fun hpending halign => ⟨_, step_of_ibuf_write hpending hlo hhi (.inr rfl) fun _ => halign, fun a => ?word⟩⟩
  case byte =>
    change (s.mem.store off [v.extractLsb' 0 8]).read a = _
    rw [read_store, List.length_singleton]
    by_cases ha : a = off
    · rw [if_pos (by omega), if_pos ha, ha, Nat.sub_self]; rfl
    · rw [if_neg (by omega), if_neg ha]
  case word =>
    change (s.mem.store off (le32 v)).read a = _
    rw [read_store, le32_length]
    by_cases ha : off ≤ a ∧ a < off + 4
    · rw [if_pos ha, if_pos ha, le32_getD v (by omega)]
    · rw [if_neg ha, if_neg ha]

end Sys2Proof.Machine
end

section
/-! PROOFS. The CRC functions (40_crc.md R100 to R124): the table step as division by the polynomial, padding and
windows, the printed values, and what a CRC command reads of IBUF. -/

namespace Sys2Proof.Machine

/-! ### The table step is eight bits of the division -/

theorem crcBitStep_eq (c : Word) : crcBitStep c = c <<< 1 ^^^ if c.msb then Config.crcPoly else 0 := by
  rw [crcBitStep]
  split
  · rfl
  · exact BitVec.xor_zero.symm

/-- A bit step is linear: the polynomial comes in exactly where the two top bits differ. -/
theorem crcBitStep_xor (a b : Word) : crcBitStep (a ^^^ b) = crcBitStep a ^^^ crcBitStep b := by
  have hpoly : (if (a ^^^ b).msb then Config.crcPoly else 0) =
      (if a.msb then Config.crcPoly else 0) ^^^ if b.msb then Config.crcPoly else 0 := by
    rw [BitVec.msb_xor]
    cases a.msb <;> cases b.msb <;> simp
  simp only [crcBitStep_eq, hpoly, BitVec.shiftLeft_xor_distrib]
  ac_rfl

theorem crcBits8_xor (a b : Word) : crcBits8 (a ^^^ b) = crcBits8 a ^^^ crcBits8 b := by
  simp only [crcBits8, crcBitStep_xor]

/-- With the top byte zero the next eight bit steps are shifts: no bit reaches the top. -/
theorem crcBitStep_shift {x : Word} (hx : x.toNat < 2 ^ 24) {k : Nat} (hk : k < 8) :
    crcBitStep (x <<< k) = x <<< (k + 1) := by
  have hpow : 2 ^ k ≤ 2 ^ 7 := Nat.pow_le_pow_right (by decide) (by omega)
  have hmul : x.toNat * 2 ^ k < 2 ^ 31 :=
    calc x.toNat * 2 ^ k ≤ x.toNat * 2 ^ 7 := Nat.mul_le_mul_left _ hpow
      _ < 2 ^ 31 := by omega
  have hmsb : (x <<< k).msb = false := by
    rw [BitVec.msb_eq_false_iff_two_mul_lt, BitVec.toNat_shiftLeft, Nat.shiftLeft_eq, Nat.mod_eq_of_lt (by omega)]
    omega
  rw [crcBitStep, hmsb, if_neg (by decide), BitVec.shiftLeft_add]

theorem crcBits8_of_lt {x : Word} (hx : x.toNat < 2 ^ 24) : crcBits8 x = x <<< 8 := by
  have hstep := fun {k : Nat} => crcBitStep_shift (k := k) hx
  calc crcBits8 x = crcBits8 (x <<< 0) := by rw [BitVec.shiftLeft_zero]
    _ = x <<< 8 := by
      rw [crcBits8, hstep (by decide), hstep (by decide), hstep (by decide), hstep (by decide), hstep (by decide),
        hstep (by decide), hstep (by decide), hstep (by decide)]

/-- The printed table agrees with its construction (R100). -/
theorem crcTable_eq_generated : ∀ i, crcTable i = crcTableGenerated i := by decide +kernel

/-- A word is its low 24 bits and its top byte. -/
theorem word_split (c : Word) :
    c = (c.truncate 24).zeroExtend 32 ^^^ ((c >>> 24).truncate 8).zeroExtend 32 <<< 24 := by
  apply BitVec.eq_of_getLsbD_eq
  intro i hi
  by_cases h : i < 24
  · simp [h, hi]
  · simp [h, hi, show i - 24 < 8 by omega, show 24 + (i - 24) = i by omega]

/-- Shifted by eight, a word keeps its low 24 bits only. -/
theorem shiftLeft_eight_low (c : Word) : (c.truncate 24).zeroExtend 32 <<< 8 = c <<< 8 := by
  apply BitVec.eq_of_getLsbD_eq
  intro i hi
  simp [show i - 8 < 24 by omega, show i - 8 < 32 by omega]

/-- Settles O14: the division is linear; it shifts the low 24 bits, and the table is what it makes of the top byte. -/
theorem tableStepIsBitSerialDivision : Obligations.TableStepIsBitSerialDivision := by
  unfold Obligations.TableStepIsBitSerialDivision
  intro c b
  set low : Word := (c.truncate 24).zeroExtend 32 with hlow
  set top : Byte := (c >>> 24).truncate 8
  have hlt : low.toNat < 2 ^ 24 := by
    rw [hlow, BitVec.toNat_setWidth, BitVec.toNat_setWidth]
    omega
  have hbyte : (top ^^^ b).zeroExtend 32 <<< 24 = (top.zeroExtend 32 <<< 24 ^^^ b.zeroExtend 32 <<< 24 : Word) := by
    rw [BitVec.zeroExtend, BitVec.setWidth_xor, BitVec.shiftLeft_xor_distrib]
  calc crcStep c b
      = low <<< 8 ^^^ crcTable (top ^^^ b) := by rw [crcStep, hlow, shiftLeft_eight_low]
    _ = crcBits8 low ^^^ crcBits8 ((top ^^^ b).zeroExtend 32 <<< 24) := by
      rw [crcBits8_of_lt hlt, crcTable_eq_generated, crcTableGenerated]
    _ = crcBits8 (c ^^^ b.zeroExtend 32 <<< 24) := by
      rw [← crcBits8_xor, hbyte, ← BitVec.xor_assoc, ← word_split]

/-! ### The word step, padding and windows -/

/-- Settles O15: the core on the four bytes of the word. -/
theorem wordStepConsumesBytesInOrder : Obligations.WordStepConsumesBytesInOrder := by
  unfold Obligations.WordStepConsumesBytesInOrder
  exact crcWord_be32

/-- The zeros that fill a window may be there already. -/
theorem window_append_zeros {s : List Byte} {n : Nat} (h : s.length ≤ n) :
    window (s ++ zeros (n - s.length)) n = window s n := by
  have hlen : (s ++ zeros (n - s.length)).length = n := by rw [List.length_append, zeros_length]; omega
  rw [window_of_ge hlen.ge, List.take_of_length_le hlen.le, window_of_le h]

/-- Settles O16: both windows take the padded sequence as it is. -/
theorem fixedWindowIgnoresZeroPadding : Obligations.FixedWindowIgnoresZeroPadding := by
  unfold Obligations.FixedWindowIgnoresZeroPadding
  exact ⟨fun s h => congrArg (crcRaw · Config.crcInit) (window_append_zeros h).symm,
    fun s h => congrArg (crcRaw · Config.crcInit) (window_append_zeros h).symm⟩

/-- The 16-byte window never gives the CRC of a command byte: evaluated for each byte. -/
theorem crcCommand_ne_crcFixed16 : ∀ b, crcCommand b ≠ crcFixed16 [b] := by decide +kernel

/-- Settles O17: a one-byte image is padded to the word of the command byte. -/
theorem commandCrcIsOneByteImageCrc : Obligations.CommandCrcIsOneByteImageCrc := by
  unfold Obligations.CommandCrcIsOneByteImageCrc
  exact fun b => ⟨crcCommand_eq_crcRaw b, crcCommand_eq_crcRaw b, crcCommand_ne_crcFixed16 b⟩

/-- Settles O18: zeros that fill a window change nothing, and the other values are evaluated. -/
theorem knownCrcValues : Obligations.KnownCrcValues := by
  unfold Obligations.KnownCrcValues
  have h256 : crcFixedDatapack (zeros 256) = 0xE55E964F :=
    (fixedWindowIgnoresZeroPadding.2 [] (Nat.zero_le _)).symm.trans crcFixedDatapack_nil
  have h16 : crcFixed16 (zeros 16) = 0x552D22C8 :=
    (fixedWindowIgnoresZeroPadding.1 [] (Nat.zero_le _)).symm.trans crcFixed16_nil
  exact ⟨crcFullImage_of_dvd rfl, by decide +kernel, by decide +kernel, h256, h16, by decide +kernel⟩

/-! ### What a CRC command reads of IBUF -/

/-- A window of `k` bytes reads at most `k` bytes of memory (R124). -/
theorem window_load_congr {m m' : Memory} {lo n k : Nat} (h : m.load lo (min n k) = m'.load lo (min n k)) :
    window (m.load lo n) k = window (m'.load lo n) k := by
  obtain hn | hk := le_total n k
  · rw [min_eq_left hn] at h
    rw [h]
  · rw [min_eq_right hk] at h
    rw [window_load_of_ge hk, window_load_of_ge hk, h]

/-- Settles O27: a rejected count leaves ACC alone, and an accepted one reads the bytes the two states share. -/
theorem crcIgnoresStaleIbuf : Obligations.CrcIgnoresStaleIbuf := by
  unfold Obligations.CrcIgnoresStaleIbuf
  intro s t n hacc
  have hrejected : 256 < n → ∀ i s' t', i = .crcUpdate n ∨ i = .crcFull n ∨ i = .crcFixed16 n ∨ i = .crcDatapack n →
      exec i s = .next s' → exec i t = .next t' → s'.acc = t'.acc := by
    intro hn i s' t' hi hs ht
    cases (exec_crcCount_of_gt hn s hi).symm.trans hs
    cases (exec_crcCount_of_gt hn t hi).symm.trans ht
    exact hacc
  obtain hn | hn := lt_or_ge 256 n
  · exact ⟨fun _ s' t' => hrejected hn _ s' t' (by simp), fun _ s' t' => hrejected hn _ s' t' (by simp),
      fun _ i hi s' t' => hrejected hn i s' t' (hi.imp_right .inl)⟩
  refine ⟨fun hload s' t' hs ht => ?fixed16, fun hload s' t' hs ht => ?datapack, fun hload i hi s' t' hs ht => ?whole⟩
  case fixed16 =>
    cases (exec_crcFixed16_of_le hn s).symm.trans hs
    cases (exec_crcFixed16_of_le hn t).symm.trans ht
    exact congrArg (crcRaw · Config.crcInit) (window_load_congr hload)
  case datapack =>
    cases (exec_crcDatapack_of_le hn s).symm.trans hs
    cases (exec_crcDatapack_of_le hn t).symm.trans ht
    exact congrArg (crcRaw · Config.crcInit) (window_load_congr hload)
  case whole =>
    obtain rfl | rfl := hi
    · cases (exec_crcUpdate_of_le hn s).symm.trans hs
      cases (exec_crcUpdate_of_le hn t).symm.trans ht
      simp only [hload, hacc]
    · cases (exec_crcFull_of_le hn s).symm.trans hs
      cases (exec_crcFull_of_le hn t).symm.trans ht
      simp only [hload]

end Sys2Proof.Machine
end

section
/-! PROOFS. What a successful encode command leaves (41_encode.md R141, R147 to R149): the frame of the command's type
and payload, its place in OBUF, and the fields read back from it. -/

namespace Sys2Proof.Machine

/-! ### The frame of an encode command -/

/-- The packet type an encode command builds (R142 to R145). -/
def encodedType : Instr → Byte
  | .encData _ => typeData
  | .encHeader => typeHeader
  | .encBulkHeader => typeBulkHeader
  | _ => typeCommand

/-- The payload an encode command takes from its operands (R142 to R145). -/
def encodedPayload (s : State) : Instr → List Byte
  | .encCommand b => [b]
  | .encData n => s.mem.load 0x100 n
  | .encHeader => headerPayload s.arg0 s.arg1
  | .encBulkHeader => bulkHeaderPayload s.arg0
  | _ => []

/-- The state `t` is `s` after a successful encode command that built the frame of type `ty` with payload `p`. -/
def EncodedFrom (ty : Byte) (p : List Byte) (s t : State) : Prop :=
  legalLength ty p.length = true ∧
    t = { putFrame (frame ty p (typeCrc ty p)) (typeCrc ty p) s with operr := .ok }

/-- The frame's length is legal and its CRC field is the CRC of its type. -/
theorem encodedFrom_of_buildFrame {ty : Byte} {p : List Byte} {c : Word} {s t : State}
    (h : buildFrame ty p c s = .next t) (hlegal : legalLength ty p.length = true) (hc : c = typeCrc ty p) :
    EncodedFrom ty p s t := by
  subst hc
  rw [buildFrame_eq] at h
  cases h
  exact ⟨hlegal, rfl⟩

theorem exec_enc_ok {i : Instr} {s t : State} (hfam : familyOf i = .enc) (hexec : exec i s = .next t)
    (hok : t.operr = .ok) : EncodedFrom (encodedType i) (encodedPayload s i) s t := by
  obtain ⟨t', hnext, hcode, -⟩ := exec_completesWith i s
  cases hnext.symm.trans hexec
  rw [hok] at hcode
  cases i with
  | encCommand b =>
    have hb : ¬ 1 < b.toNat := fun hgt => by simp [ownCheck, hgt] at hcode
    rw [exec_encCommand_of_le (by omega)] at hexec
    exact encodedFrom_of_buildFrame hexec rfl (typeCrc_command [b]).symm
  | encData n =>
    have hout : ¬ (n = 0 ∨ 256 < n) := fun hout => by simp [ownCheck, hout] at hcode
    have hn : 1 ≤ n ∧ n ≤ 256 := by omega
    rw [exec_encData_of_mem hn] at hexec
    refine encodedFrom_of_buildFrame hexec ((legalLength_iff ..).mpr (.inr (.inl ⟨rfl, ?_⟩))) (typeCrc_data _).symm
    rwa [encodedPayload, load_length]
  | encHeader => exact encodedFrom_of_buildFrame hexec rfl (typeCrc_header _).symm
  | encBulkHeader => exact encodedFrom_of_buildFrame hexec rfl (typeCrc_bulkHeader _).symm
  | _ => cases hfam

/-! ### Where the frame is -/

section
variable {ty : Byte} {p : List Byte} {s t : State}

theorem EncodedFrom.length_bounds (h : EncodedFrom ty p s t) : 1 ≤ p.length ∧ p.length ≤ 256 :=
  have ⟨hlo, hhi, _⟩ := legalLength_bounds h.1
  ⟨hlo, hhi⟩

theorem EncodedFrom.fcrc_eq (h : EncodedFrom ty p s t) : t.fcrc = typeCrc ty p := by rw [h.2]; rfl

theorem EncodedFrom.olen_eq (h : EncodedFrom ty p s t) : t.olen = BitVec.ofNat 32 (p.length + 10) := by
  rw [h.2, ← frame_length ty p (typeCrc ty p)]; rfl

theorem EncodedFrom.olen_toNat (h : EncodedFrom ty p s t) : t.olen.toNat = p.length + 10 := by
  have := h.length_bounds
  rw [h.olen_eq, BitVec.toNat_ofNat, Nat.mod_eq_of_lt (by omega)]

/-- OBUF holds the frame, and zeros after it (R141). -/
theorem EncodedFrom.obuf_eq (h : EncodedFrom ty p s t) :
    t.mem.load 0x200 266 = frame ty p t.fcrc ++ zeros (256 - p.length) := by
  have hp := h.length_bounds
  have hlen : (frame ty p t.fcrc ++ zeros (Config.obufSize - (frame ty p t.fcrc).length)).length = 266 := by
    rw [List.length_append, zeros_length, frame_length, show Config.obufSize = 266 from rfl]; omega
  have hpad : 256 - p.length = Config.obufSize - (frame ty p t.fcrc).length := by
    rw [frame_length, show Config.obufSize = 266 from rfl]; omega
  have hmem :
      t.mem = s.mem.store 0x200 (frame ty p t.fcrc ++ zeros (Config.obufSize - (frame ty p t.fcrc).length)) := by
    rw [h.fcrc_eq, h.2]; rfl
  rw [hmem, hpad]
  rw (occs := .pos [1]) [← hlen]
  exact load_store_same ..

/-- `OBUF[0..OLEN)` is the frame. -/
theorem EncodedFrom.load_olen (h : EncodedFrom ty p s t) :
    t.mem.load 0x200 t.olen.toNat = frame ty p (typeCrc ty p) := by
  have hp := h.length_bounds
  rw [h.olen_toNat, ← load_take (show p.length + 10 ≤ 266 by omega), h.obuf_eq, h.fcrc_eq,
    List.take_left' (frame_length ..)]

end

/-! ### Fields read back from a byte sequence -/

theorem byteAt_append_right (a b : List Byte) (i : Nat) : byteAt (a ++ b) (a.length + i) = byteAt b i := by
  rw [byteAt, List.getD_append_right _ _ _ _ (Nat.le_add_right ..), Nat.add_sub_cancel_left, byteAt]

theorem u32le_append_right (a b : List Byte) : u32le (a ++ b) a.length = u32le b 0 := by
  simp only [u32le, byteAt_append_right, Nat.zero_add]
  rw [← byteAt_append_right a b 0, Nat.add_zero]

/-- A 32-bit field at the start of a sequence reads back (R8). -/
theorem u32le_le32 (c : Word) (b : List Byte) : u32le (le32 c ++ b) 0 = c := ofLe32_lanes c

/-- A 16-bit field at the start of a sequence reads back (R8). -/
theorem u16le_le16 (v : BitVec 16) (b : List Byte) : u16le (le16 v ++ b) 0 = v := by
  have hlanes : u16le (le16 v ++ b) 0 = v.extractLsb' 8 8 ++ v.extractLsb' 0 8 := rfl
  rw [hlanes, BitVec.extractLsb'_append_extractLsb'_eq_extractLsb' (show 8 = 0 + 8 from rfl)]
  exact BitVec.extractLsb'_eq_self

/-- The part of a frame before its CRC field (R78). -/
def frameHead (ty : Byte) (p : List Byte) : List Byte := [Config.sof, ty] ++ le16 (BitVec.ofNat 16 p.length) ++ p

theorem frame_eq_head_append (ty : Byte) (p : List Byte) (c : Word) :
    frame ty p c = frameHead ty p ++ (le32 c ++ [0x0D, 0x0A]) :=
  List.append_assoc ..

theorem frameHead_length (ty : Byte) (p : List Byte) : (frameHead ty p).length = p.length + 4 := by
  simp only [frameHead, List.length_append, List.length_cons, List.length_nil, le16_length]; omega

section
variable {ty : Byte} {p : List Byte} {s t : State}

/-- The length field in OBUF is the number of payload bytes (R148). -/
theorem EncodedFrom.lengthField (h : EncodedFrom ty p s t) :
    u16le (t.mem.load 0x200 266) 2 = BitVec.ofNat 16 p.length := by
  rw [h.obuf_eq]
  exact u16le_le16 _ (p ++ le32 t.fcrc ++ [0x0D, 0x0A] ++ zeros (256 - p.length))

/-- OBUF from the CRC field on (R149). -/
theorem EncodedFrom.obuf_eq_head_append (h : EncodedFrom ty p s t) :
    t.mem.load 0x200 266 = frameHead ty p ++ (le32 t.fcrc ++ ([0x0D, 0x0A] ++ zeros (256 - p.length))) := by
  rw [h.obuf_eq, frame_eq_head_append]
  simp only [List.append_assoc]

theorem EncodedFrom.crcField (h : EncodedFrom ty p s t) :
    u32le (t.mem.load 0x200 266) (p.length + 4) = t.fcrc := by
  rw [h.obuf_eq_head_append, ← frameHead_length ty p, u32le_append_right, u32le_le32]

/-- The terminator follows the CRC field (R78). -/
theorem EncodedFrom.read_terminator (h : EncodedFrom ty p s t) {j : Nat} (hj : j < 2) :
    t.mem.read (0x200 + (p.length + 8 + j)) = byteAt [0x0D, 0x0A] j := by
  have hp := h.length_bounds
  have hlen : (frameHead ty p ++ le32 t.fcrc).length = p.length + 8 := by
    rw [List.length_append, frameHead_length, le32_length]
  rw [← load_getD (show p.length + 8 + j < 266 by omega), h.obuf_eq_head_append, ← List.append_assoc, ← hlen]
  rw [← byteAt, byteAt_append_right, byteAt, List.getD_append _ _ _ _ hj, byteAt]

theorem EncodedFrom.read_sof (h : EncodedFrom ty p s t) : t.mem.read 0x200 = 0x24 := by
  rw [show 0x200 = 0x200 + 0 from rfl, ← load_getD (show 0 < 266 by decide), h.obuf_eq]
  rfl

end

/-! ### The obligations -/

/-- Settles O38: the length field is the payload's length, which is OLEN less the ten bytes around it. -/
theorem encodedLengthFieldIsOlenLessTen : Obligations.EncodedLengthFieldIsOlenLessTen := by
  unfold Obligations.EncodedLengthFieldIsOlenLessTen
  intro i s t hfam hexec hok
  have h := exec_enc_ok hfam hexec hok
  have hp := h.length_bounds
  rw [h.lengthField, h.olen_toNat, BitVec.toNat_ofNat]
  refine ⟨by omega, by omega, by omega, ?_⟩
  rintro rfl
  refine ⟨rfl, ?_⟩
  rw [h.obuf_eq]
  exact ofLe32_lanes s.arg0

/-- Settles O39: the fields after the payload, read from the place of the frame in OBUF. -/
theorem encodedCrcFieldIsFcrc : Obligations.EncodedCrcFieldIsFcrc := by
  unfold Obligations.EncodedCrcFieldIsFcrc
  intro i s t hfam hexec hok
  have h := exec_enc_ok hfam hexec hok
  rw [h.olen_toNat]
  exact ⟨h.crcField, h.read_terminator (j := 0) (by decide), h.read_terminator (j := 1) (by decide), h.read_sof⟩

/-- The payload depends on ARG0, ARG1 and the IBUF bytes the command counts (R147). -/
theorem encodedPayload_congr {i : Instr} {s t : State} (h0 : s.arg0 = t.arg0) (h1 : s.arg1 = t.arg1)
    (hload : s.mem.load 0x100 (countField i) = t.mem.load 0x100 (countField i)) :
    encodedPayload s i = encodedPayload t i := by
  cases i with
  | encData n => exact hload
  | encHeader => rw [encodedPayload, encodedPayload, h0, h1]
  | encBulkHeader => rw [encodedPayload, encodedPayload, h0]
  | _ => rfl

/-- Settles O37: the code is the command's own check, and the frame is made from the operands. -/
theorem encodedFrameDependsOnOperandsOnly : Obligations.EncodedFrameDependsOnOperandsOnly := by
  unfold Obligations.EncodedFrameDependsOnOperandsOnly
  intro i s t s' t' hfam h0 h1 hload hs ht
  have hoperr : s'.operr = t'.operr := by
    obtain ⟨s'', hs', hcode, -⟩ := exec_completesWith i s
    obtain ⟨t'', ht', hcode', -⟩ := exec_completesWith i t
    cases hs'.symm.trans hs
    cases ht'.symm.trans ht
    rw [hcode, hcode']
  refine ⟨hoperr, fun hok => ?_⟩
  have hframe := exec_enc_ok hfam hs hok
  have hframe' := exec_enc_ok hfam ht (hoperr ▸ hok)
  rw [← encodedPayload_congr h0 h1 hload] at hframe'
  have hfcrc : s'.fcrc = t'.fcrc := hframe.fcrc_eq.trans hframe'.fcrc_eq.symm
  exact ⟨hframe.olen_eq.trans hframe'.olen_eq.symm, hfcrc, by rw [hframe.obuf_eq, hframe'.obuf_eq, hfcrc]⟩

end Sys2Proof.Machine
end

section
/-! PROOFS. What a command can do to the state (10_state.md R38), and the invariant of the block: every command and
every host access keeps it, so every step does. -/

namespace Sys2Proof.Machine

/-! ### What a command can do -/

/-- CRC commands end in a write of ACC or in ERR_LENGTH (R110 to R117). -/
theorem exec_crc {i : Instr} {s t : State} (hfam : familyOf i = .crc) (h : exec i s = .next t) :
    ∃ v e, t = { s with acc := v, operr := e } := by
  cases i with
  | crcInit | crcByte | crcWord | crcCommand => cases h; exact ⟨_, _, rfl⟩
  | crcUpdate n | crcFull n | crcFixed16 n | crcDatapack n =>
    obtain ⟨-, -, hrun⟩ | ⟨-, hrun⟩ := withCount_cases 0 n s _
    · cases hrun.symm.trans h; exact ⟨_, _, rfl⟩
    · cases hrun.symm.trans h; exact ⟨_, _, rfl⟩
  | _ => cases hfam

theorem exec_enc {i : Instr} {s t : State} (hfam : familyOf i = .enc) (h : exec i s = .next t) :
    (∃ e, t = { s with operr := e }) ∨ ∃ ty p, EncodedFrom ty p s t := by
  by_cases hok : t.operr = .ok
  · exact .inr ⟨_, _, exec_enc_ok hfam h hok⟩
  · obtain ⟨t', hnext, -, honly⟩ := exec_completesWith i s
    cases hnext.symm.trans h
    exact .inl ⟨_, honly hok⟩

theorem exec_dec {i : Instr} {s t : State} (hfam : familyOf i = .dec) (h : exec i s = .next t) :
    (i = .decReset ∧ t = { clearDecoder s with devent := .noEvent, dstate := .hunt, operr := .ok }) ∨
      ∃ b, i = .decByte b ∧ t = { decTransition b s with operr := .ok } := by
  cases i with
  | decReset => cases h; exact .inl ⟨rfl, rfl⟩
  | decByte b => cases h; exact .inr ⟨b, rfl, rfl⟩
  | _ => cases hfam

/-- What a command can do: set ACC, refuse its operand, build a frame, clear the decoder, or take one byte. -/
theorem exec_cases {i : Instr} {s t : State} (h : exec i s = .next t) :
    (familyOf i = .crc ∧ ∃ v e, t = { s with acc := v, operr := e }) ∨
    (familyOf i = .enc ∧ ∃ e, t = { s with operr := e }) ∨
    (familyOf i = .enc ∧ ∃ ty p, EncodedFrom ty p s t) ∨
    (i = .decReset ∧ t = { clearDecoder s with devent := .noEvent, dstate := .hunt, operr := .ok }) ∨
    ∃ b, i = .decByte b ∧ t = { decTransition b s with operr := .ok } := by
  cases hfam : familyOf i with
  | crc => exact .inl ⟨rfl, exec_crc hfam h⟩
  | enc => exact (exec_enc hfam h).elim (fun he => .inr (.inl ⟨rfl, he⟩)) fun he => .inr (.inr (.inl ⟨rfl, he⟩))
  | dec => exact .inr (.inr (.inr (exec_dec hfam h)))

/-- A frame is stored in OBUF only (R141). -/
theorem EncodedFrom.read_outside {ty : Byte} {p : List Byte} {s t : State} (h : EncodedFrom ty p s t) {a : Nat}
    (ha : a < 0x200 ∨ 0x30A ≤ a) : t.mem.read a = s.mem.read a := by
  have hp := h.length_bounds
  have hlen : (frame ty p (typeCrc ty p)).length ≤ 266 := by rw [frame_length]; omega
  rw [h.2]
  exact (putFrame_read hlen (typeCrc ty p) s a).trans (if_neg (by omega))

/-- Settles O53: the five things a command can do, each with the fields it leaves alone. -/
theorem commandsWriteOnlyTheirState : Obligations.CommandsWriteOnlyTheirState := by
  unfold Obligations.CommandsWriteOnlyTheirState
  intro i s t h
  obtain ⟨hfam, v, e, rfl⟩ | ⟨hfam, e, rfl⟩ | ⟨hfam, ty, p, henc⟩ | ⟨rfl, rfl⟩ | ⟨b, rfl, rfl⟩ := exec_cases h
  case inl => simp [hfam]
  case inr.inl => simp
  case inr.inr.inl =>
    have hmem : ∀ a, t.mem.read a ≠ s.mem.read a → 0x200 ≤ a ∧ a < 0x30A := fun a hne => by
      by_contra hout
      exact hne (henc.read_outside (by omega))
    rw [henc.2] at hmem ⊢
    simpa [hfam] using hmem
  case inr.inr.inr.inl =>
    have hmem : ∀ a, (clearDecoder s).mem.read a ≠ s.mem.read a → 0x400 ≤ a ∧ a < 0x500 := fun a hne => by
      by_contra hout
      exact hne ((clearDecoder_read s a).trans (if_neg hout))
    simpa [familyOf] using hmem
  case inr.inr.inr.inr =>
    obtain ⟨hcmd, harg0, harg1, hacc, hfcrc, holen, hpending, hdata, hread⟩ := decTransition_frame b s
    have hmem : ∀ a, (decTransition b s).mem.read a ≠ s.mem.read a → 0x400 ≤ a ∧ a < 0x500 := fun a hne => by
      by_contra hout
      exact hne (hread a (by omega))
    simpa [familyOf, *] using hmem

/-- Settles O56: the code is the one of the command's own check. -/
theorem commandErrorCodes : Obligations.CommandErrorCodes := by
  unfold Obligations.CommandErrorCodes
  intro i s
  obtain ⟨t, hnext, hcode, -⟩ := exec_completesWith i s
  refine ⟨t, hnext, ?_⟩
  rw [hcode]
  cases i with
  | crcUpdate n | crcFull n | crcFixed16 n | crcDatapack n =>
    by_cases hn : 256 < n
    · simp [ownCheck, hn]
    · exact .inl (if_neg hn)
  | encData n =>
    by_cases hn : n = 0 ∨ 256 < n
    · simp [ownCheck, hn]
    · exact .inl (if_neg hn)
  | encCommand b =>
    by_cases hb : 1 < b.toNat
    · simp [ownCheck, hb]
    · exact .inl (if_neg hb)
  | _ => exact .inl rfl

end Sys2Proof.Machine
end

section
/-! PROOFS. The invariant of the block (10_state.md, 41_encode.md R141, R148, R149, 42_decode.md R172 to R182): what
its three parts depend on, and each command and host access keeping them. -/

namespace Sys2Proof.Machine

/-! ### What each part of the invariant depends on -/

theorem inBuffers_eq_false_iff (a : Nat) :
    inBuffers a = false ↔ a < 0x100 ∨ (0x30A ≤ a ∧ a < 0x400) ∨ 0x500 ≤ a := by
  simp only [inBuffers, Bool.or_eq_false_iff, Bool.and_eq_false_iff, decide_eq_false_iff_not]
  omega

theorem MemoryHolds.of_read_eq {s t : State} (h : MemoryHolds s) (hwf : t.mem.wf = true)
    (hread : ∀ a, inBuffers a = false → t.mem.read a = s.mem.read a) : MemoryHolds t :=
  ⟨hwf, fun a ha => (hread a ha).trans (h.2 a ha)⟩

/-- The states have the same OLEN, FCRC and OBUF. -/
def SameEncoder (s t : State) : Prop :=
  t.olen = s.olen ∧ t.fcrc = s.fcrc ∧ ∀ a, 0x200 ≤ a → a < 0x30A → t.mem.read a = s.mem.read a

theorem EncoderHolds.congr {s t : State} (h : EncoderHolds s) (hsame : SameEncoder s t) : EncoderHolds t := by
  obtain ⟨holen, hfcrc, hread⟩ := hsame
  have hobuf : obufBytes t 266 = obufBytes s 266 :=
    load_congr fun i hi => hread _ (Nat.le_add_right ..) (Nat.add_lt_add_left hi 0x200)
  rw [EncoderHolds, holen, hfcrc, hobuf]
  exact h

/-- The states have the same decoder registers, and the same bytes from DBUF on. -/
def SameDecoder (s t : State) : Prop :=
  (t.devent = s.devent ∧ t.dstate = s.dstate ∧ t.dtype = s.dtype ∧ t.dlen = s.dlen ∧ t.dcrc = s.dcrc ∧
    t.dcalc = s.dcalc ∧ t.dcnt = s.dcnt) ∧ ∀ a, 0x400 ≤ a → t.mem.read a = s.mem.read a

theorem SameDecoder.load_eq {s t : State} (h : SameDecoder s t) (n : Nat) :
    t.mem.load 0x400 n = s.mem.load 0x400 n :=
  load_congr fun _ _ => h.2 _ (Nat.le_add_right ..)

theorem SameDecoder.computedCrc_eq {s t : State} (h : SameDecoder s t) : computedCrc t = computedCrc s := by
  have hload := h.load_eq s.dlen.toNat
  obtain ⟨⟨-, -, htype, hlen, -, -, -⟩, -⟩ := h
  rw [computedCrc, htype, hlen]
  exact congrArg (typeCrc s.dtype) hload

theorem stateRecord_congr {s t : State} (h : SameDecoder s t) (d : DState) : stateRecord t d = stateRecord s d := by
  have hcalc := h.computedCrc_eq
  obtain ⟨⟨hevent, -, htype, hlen, hcrc, hdcalc, hcnt⟩, -⟩ := h
  have hhunt : ∀ e, huntRecord t e = huntRecord s e := fun e => by
    cases e <;> simp only [huntRecord, NothingReceived, CrcAgrees, PayloadReceived, *]
  cases d <;> simp only [stateRecord, NothingReceived, CrcAgrees, PayloadReceived, *]

theorem DecoderHolds.congr {s t : State} (h : DecoderHolds s) (hsame : SameDecoder s t) : DecoderHolds t := by
  have hrecord := stateRecord_congr hsame s.dstate
  obtain ⟨⟨hevent, hstate, -, -, -, -, hcnt⟩, hread⟩ := hsame
  obtain ⟨hhunt, hle, hzero, hrec⟩ := h
  rw [DecoderHolds, hevent, hstate, hcnt, hrecord]
  exact ⟨hhunt, hle, fun i hi hi' => (hread _ (Nat.le_add_right ..)).trans (hzero i hi hi'), hrec⟩

theorem DecoderHolds.record {s : State} {d : DState} (h : DecoderHolds s) (hs : s.dstate = d) : stateRecord s d := by
  obtain ⟨-, -, -, hrec⟩ := h
  rwa [hs] at hrec

/-- The registers of the host, of the CRC commands and of the model's own are no part of the invariant. -/
theorem BlockInv.host {s : State} (h : BlockInv s) (cmd arg0 arg1 acc : Word) (operr : OpErr)
    (pending : List HostEvent) (readData : Option Word) :
    BlockInv { s with cmd, arg0, arg1, acc, operr, pending, readData } := h

/-! ### Reset, and the host's writes to IBUF -/

/-- Settles O57: after reset no byte is stored, no frame is in OBUF, and the decoder has recorded nothing. -/
theorem resetMeetsInvariant : Obligations.ResetMeetsInvariant := by
  unfold Obligations.ResetMeetsInvariant
  have hobuf : obufBytes State.reset 266 = zeros 266 := by decide +kernel
  exact ⟨⟨rfl, fun _ _ => rfl⟩, .inl ⟨rfl, rfl, hobuf⟩, fun _ => rfl, Nat.zero_le _, fun _ _ _ => rfl,
    rfl, rfl, rfl, rfl, rfl⟩

/-- A store inside IBUF keeps the invariant. -/
theorem BlockInv.store_ibuf {s : State} (h : BlockInv s) {off : Nat} {bs : List Byte} (hlo : 0x100 ≤ off)
    (hhi : off + bs.length ≤ 0x200) : BlockInv { s with mem := s.mem.store off bs } := by
  have hread : ∀ a, a < 0x100 ∨ 0x200 ≤ a → (s.mem.store off bs).read a = s.mem.read a :=
    fun a ha => read_store_outside (by omega)
  obtain ⟨hmem, henc, hdec⟩ := h
  refine ⟨hmem.of_read_eq (store_wf hmem.1 _ _) fun a ha => hread a ?_,
    henc.congr ⟨rfl, rfl, fun a ha _ => hread a (.inr ha)⟩,
    hdec.congr ⟨⟨rfl, rfl, rfl, rfl, rfl, rfl, rfl⟩, fun a ha => hread a (.inr (by omega))⟩⟩
  rw [inBuffers_eq_false_iff] at ha
  omega

/-- A write to IBUF that passes the checks of R52 stores inside IBUF. -/
theorem ibuf_write_bounds {off n : Nat} {r : Region} (hcheck : busCheck off n true = .ok r) (hloc : r.loc = .ibuf)
    (v : Word) : 0x100 ≤ off ∧ off + (writtenBytes n v).length ≤ 0x200 := by
  obtain ⟨hregion, hwidth, halign, -⟩ := busCheck_ok hcheck
  obtain ⟨hmem, hlo, hhi⟩ := regionAt_bounds hregion
  have hrow : ∀ r ∈ windowMap, r.loc = .ibuf → r = bufferRow .ibuf 0x100 0x100 true := by decide
  obtain rfl := hrow r hmem hloc
  simp only [bufferRow, List.mem_cons, List.not_mem_nil, or_false] at hlo hhi hwidth
  obtain rfl | rfl := hwidth
  · exact ⟨hlo, by simp [writtenBytes]; omega⟩
  · have := halign rfl
    exact ⟨hlo, by simp [writtenBytes]; omega⟩

/-- A host write that passes the checks of R52 keeps the invariant, the command it may issue left aside. -/
theorem locWrite_keeps_blockInv {s : State} (h : BlockInv s) {off n : Nat} {r : Region} (v : Word)
    (hcheck : busCheck off n true = .ok r) : BlockInv (locWrite s r.loc off n v) := by
  cases hloc : r.loc with
  | ibuf =>
    obtain ⟨hlo, hhi⟩ := ibuf_write_bounds hcheck hloc v
    exact h.store_ibuf hlo hhi
  | _ => exact h

/-! ### The encode commands -/

theorem EncodedFrom.keeps_blockInv {ty : Byte} {p : List Byte} {s t : State} (h : EncodedFrom ty p s t)
    (hinv : BlockInv s) : BlockInv t := by
  obtain ⟨hmem, -, hdec⟩ := hinv
  have hread := fun a => h.read_outside (a := a)
  have hobuf := h.obuf_eq
  refine ⟨hmem.of_read_eq ?wf fun a ha => hread a ?out, .inr ⟨ty, p, h.1, h.fcrc_eq, h.olen_eq, hobuf⟩, ?dec⟩
  case wf => rw [h.2]; exact putFrame_wf hmem.1 _ (typeCrc ty p)
  case out => rw [inBuffers_eq_false_iff] at ha; omega
  case dec =>
    refine hdec.congr ⟨?_, fun a ha => hread a (.inr (by omega))⟩
    rw [h.2]
    exact ⟨rfl, rfl, rfl, rfl, rfl, rfl, rfl⟩

/-! ### The decoder commands -/

/-- DEC_RESET and an SOF leave all of DBUF zero (R170, R172). -/
theorem dbufZeroFrom_clearDecoder (s : State) (k : Nat) : DbufZeroFrom (clearDecoder s) k := by
  intro i _ hi
  rw [clearDecoder_read, if_pos ⟨Nat.le_add_right .., Nat.add_lt_add_left hi 0x400⟩]

theorem decHunt_keeps {s : State} (b : Byte) (h : DecoderHolds s) : DecoderHolds (decHunt b s) := by
  by_cases hb : b = 0x24
  · rw [hb, decHunt_sof]
    exact ⟨fun _ => rfl, Nat.zero_le _, dbufZeroFrom_clearDecoder s _, rfl, rfl, rfl, rfl, rfl⟩
  · rwa [decHunt_noise s hb]

theorem decType_keeps {s : State} (b : Byte) (hs : s.dstate = .typ) (h : DecoderHolds s) :
    DecoderHolds (decType b s) := by
  obtain ⟨hevent, hle, hzero, hrec⟩ := h
  rw [hs] at hevent hrec
  obtain ⟨-, hlen, hnothing⟩ := hrec
  obtain hb | hb | hb : b.toNat ≤ 3 ∨ b.toNat = 4 ∨ 5 ≤ b.toNat := by omega
  · rw [decType_known s hb]
    exact ⟨fun _ => hevent nofun, hle, hzero, hb, hlen, hnothing⟩
  · obtain rfl : b = 4 := BitVec.eq_of_toNat_eq hb
    rw [decType_response]
    exact ⟨fun hne => absurd rfl hne, hle, hzero, rfl, hlen, hnothing⟩
  · rw [decType_unknown s hb]
    exact ⟨fun hne => absurd rfl hne, hle, hzero, hb, hlen, hnothing⟩

theorem decLenLo_keeps {s : State} (b : Byte) (hs : s.dstate = .lenLo) (h : DecoderHolds s) :
    DecoderHolds (decLenLo b s) := by
  obtain ⟨hevent, hle, hzero, hrec⟩ := h
  rw [hs] at hevent hrec
  obtain ⟨htype, -, hnothing⟩ := hrec
  have hlen : (b.zeroExtend 16).toNat < 256 := by
    rw [BitVec.toNat_setWidth]; exact lt_of_le_of_lt (Nat.mod_le _ _) b.isLt
  exact ⟨fun _ => hevent nofun, hle, hzero, htype, hlen, hnothing⟩

theorem decLenHi_keeps {s : State} (b : Byte) (hs : s.dstate = .lenHi) (h : DecoderHolds s) :
    DecoderHolds (decLenHi b s) := by
  obtain ⟨hevent, hle, hzero, hrec⟩ := h
  rw [hs] at hevent hrec
  obtain ⟨htype, -, hnothing⟩ := hrec
  cases hlegal : legalLength s.dtype (dlenWithHi b s).toNat with
  | true =>
    rw [decLenHi_legal hlegal]
    obtain ⟨hcrc, hcalc, hcnt⟩ := hnothing
    have hpos : s.dcnt.toNat < (dlenWithHi b s).toNat := by rw [hcnt]; exact (legalLength_bounds hlegal).1
    exact ⟨fun _ => hevent nofun, hle, hzero, hlegal, hpos, hcrc, hcalc⟩
  | false =>
    rw [decLenHi_illegal hlegal]
    exact ⟨fun hne => absurd rfl hne, hle, hzero, htype, hlegal, hnothing⟩

/-- A payload byte at index DCNT leaves DBUF zero from DCNT + 1 on. -/
theorem DbufZeroFrom.after_putDbuf {s : State} {k : Nat} (h : DbufZeroFrom s k) (hk : k < 256) (b : Byte) (i : Nat)
    (hi : k + 1 ≤ i) (hi' : i < 256) : (putDbuf s.mem k b).read (dbufBase + i) = 0 := by
  rw [putDbuf_read hk, if_neg (by rw [dbufBase]; omega), h i (by omega) hi']

theorem decPayload_keeps {s : State} (b : Byte) (hs : s.dstate = .payload) (h : DecoderHolds s) :
    DecoderHolds (decPayload b s) := by
  obtain ⟨hevent, -, hzero, hrec⟩ := h
  rw [hs] at hevent hrec
  obtain ⟨hlegal, hlt, hcrc, hcalc⟩ := hrec
  have hlen := legalLength_bounds hlegal
  have hcnt : s.dcnt.toNat < 256 := by omega
  have hsucc := dcnt_succ_toNat hcnt
  have hle : (s.dcnt + 1).toNat ≤ 256 := by omega
  have hzero' := hzero.after_putDbuf hcnt b
  rw [← hsucc] at hzero'
  by_cases hlast : (s.dcnt + 1).toNat = s.dlen.toNat
  · rw [decPayload_last hlast]
    exact ⟨fun _ => hevent nofun, hle, hzero', ⟨hlegal, hlast⟩, hcrc, hcalc⟩
  · rw [decPayload_more hlast]
    exact ⟨fun _ => hevent nofun, hle, hzero', hlegal, (by omega : (s.dcnt + 1).toNat < s.dlen.toNat), hcrc, hcalc⟩

/-- Byte `k` of the CRC field extends DCRC to `k + 1` bytes. -/
theorem dcrcWith_lt {s : State} {k : Nat} (h : s.dcrc.toNat < 2 ^ (8 * k)) (b : Byte) :
    (dcrcWith k b s).toNat < 2 ^ (8 * (k + 1)) := by
  rw [dcrcWith, BitVec.toNat_or]
  refine Nat.or_lt_two_pow (h.trans_le (Nat.pow_le_pow_right (by decide) (by omega))) ?_
  rw [BitVec.toNat_shiftLeft, Nat.shiftLeft_eq]
  refine lt_of_le_of_lt (Nat.mod_le _ _) ?_
  rw [BitVec.toNat_setWidth, Nat.mod_eq_of_lt (b.isLt.trans (by decide)), Nat.mul_succ, Nat.pow_add, Nat.mul_comm]
  exact Nat.mul_lt_mul_of_pos_left b.isLt (Nat.two_pow_pos _)

/-- The payload of the frame and `k` bytes of its CRC field were received (R177). -/
def CrcBytesReceived (s : State) (k : Nat) : Prop :=
  PayloadReceived s ∧ s.dcrc.toNat < 2 ^ (8 * k) ∧ s.dcalc = 0

/-- The states CRC0 to CRC2: byte `k` of the CRC field, if the record of the next state is the one with that byte. -/
theorem decCrcByte_keeps {s : State} {k : Nat} {next : DState} (b : Byte) (hs : s.dstate ≠ .hunt)
    (h : DecoderHolds s) (hrec : CrcBytesReceived s k)
    (hnext : ∀ u, CrcBytesReceived u (k + 1) → stateRecord u next) : DecoderHolds (decCrcByte k next b s) := by
  obtain ⟨hevent, hle, hzero, -⟩ := h
  obtain ⟨hpayload, hcrc, hcalc⟩ := hrec
  exact ⟨fun _ => hevent hs, hle, hzero, hnext _ ⟨hpayload, dcrcWith_lt hcrc b, hcalc⟩⟩

theorem decCrc3_keeps {s : State} (b : Byte) (hs : s.dstate = .crc3) (h : DecoderHolds s) :
    DecoderHolds (decCrc3 b s) := by
  obtain ⟨hevent, hle, hzero, hrec⟩ := h
  rw [hs] at hevent hrec
  obtain ⟨hpayload, -, -⟩ := hrec
  by_cases hcrc : computedCrc s = dcrcWith 3 b s
  · rw [decCrc3_agrees hcrc]
    exact ⟨fun _ => hevent nofun, hle, hzero, hpayload, rfl, hcrc.symm⟩
  · rw [decCrc3_differs hcrc]
    exact ⟨fun hne => absurd rfl hne, hle, hzero, hpayload, rfl, Ne.symm hcrc⟩

theorem decCr_keeps {s : State} (b : Byte) (hs : s.dstate = .cr) (h : DecoderHolds s) :
    DecoderHolds (decCr b s) := by
  obtain ⟨hevent, hle, hzero, hrec⟩ := h
  rw [hs] at hevent hrec
  by_cases hb : b = 0x0D
  · rw [hb, decCr_term]
    exact ⟨fun _ => hevent nofun, hle, hzero, hrec⟩
  · rw [decCr_other s hb]
    exact ⟨fun hne => absurd rfl hne, hle, hzero, hrec⟩

theorem decLf_keeps {s : State} (b : Byte) (hs : s.dstate = .lf) (h : DecoderHolds s) :
    DecoderHolds (decLf b s) := by
  obtain ⟨-, hle, hzero, hrec⟩ := h
  rw [hs] at hrec
  by_cases hb : b = 0x0A
  · rw [hb, decLf_term]
    exact ⟨fun hne => absurd rfl hne, hle, hzero, hrec⟩
  · rw [decLf_other s hb]
    exact ⟨fun hne => absurd rfl hne, hle, hzero, hrec⟩

/-- Every byte keeps the decoder's part of the invariant, one lemma per state (R172 to R181). -/
theorem decTransition_keeps {s : State} (b : Byte) (h : DecoderHolds s) : DecoderHolds (decTransition b s) := by
  cases hs : s.dstate with
  | hunt => rw [decTransition_hunt hs]; exact decHunt_keeps b h
  | typ => rw [decTransition_typ hs]; exact decType_keeps b hs h
  | lenLo => rw [decTransition_lenLo hs]; exact decLenLo_keeps b hs h
  | lenHi => rw [decTransition_lenHi hs]; exact decLenHi_keeps b hs h
  | payload => rw [decTransition_payload hs]; exact decPayload_keeps b hs h
  | crc0 =>
    obtain ⟨hpayload, hcrc, hcalc⟩ := h.record hs
    rw [decTransition_crc0 hs]
    exact decCrcByte_keeps b (by rw [hs]; nofun) h ⟨hpayload, by rw [hcrc]; decide, hcalc⟩ fun _ hu => hu
  | crc1 =>
    rw [decTransition_crc1 hs]
    exact decCrcByte_keeps b (by rw [hs]; nofun) h (h.record hs) fun _ hu => hu
  | crc2 =>
    rw [decTransition_crc2 hs]
    exact decCrcByte_keeps b (by rw [hs]; nofun) h (h.record hs) fun _ hu => hu
  | crc3 => rw [decTransition_crc3 hs]; exact decCrc3_keeps b hs h
  | cr => rw [decTransition_cr hs]; exact decCr_keeps b hs h
  | lf => rw [decTransition_lf hs]; exact decLf_keeps b hs h

/-- A decoder command changes DBUF only, so what it leaves of the decoder decides the invariant. -/
theorem BlockInv.of_dbuf {s t : State} (h : BlockInv s) (hwf : t.mem.wf = true)
    (hread : ∀ a, a < 0x400 ∨ 0x500 ≤ a → t.mem.read a = s.mem.read a) (holen : t.olen = s.olen)
    (hfcrc : t.fcrc = s.fcrc) (hdec : DecoderHolds t) : BlockInv t := by
  obtain ⟨hmem, henc, -⟩ := h
  refine ⟨hmem.of_read_eq hwf fun a ha => hread a ?_,
    henc.congr ⟨holen, hfcrc, fun a _ ha => hread a (.inl (by omega))⟩, hdec⟩
  rw [inBuffers_eq_false_iff] at ha
  omega

theorem decTransition_keeps_blockInv {s : State} (b : Byte) (h : BlockInv s) : BlockInv (decTransition b s) := by
  have ⟨⟨hwf, _⟩, _, hdec⟩ := h
  obtain ⟨-, -, -, -, hfcrc, holen, -, -, hread⟩ := decTransition_frame b s
  exact h.of_dbuf (decTransition_wf hwf b) hread holen hfcrc (decTransition_keeps b hdec)

theorem decReset_keeps_blockInv {s : State} (h : BlockInv s) :
    BlockInv { clearDecoder s with devent := .noEvent, dstate := .hunt, operr := .ok } := by
  have ⟨⟨hwf, _⟩, _⟩ := h
  refine h.of_dbuf (clearDecoder_wf hwf) (fun a ha => ?_) rfl rfl
    ⟨fun hne => absurd rfl hne, Nat.zero_le _, dbufZeroFrom_clearDecoder s _, rfl, rfl, rfl, rfl, rfl⟩
  exact (clearDecoder_read s a).trans (if_neg (by omega))

/-! ### Every command, and every step -/

theorem exec_keeps_blockInv {i : Instr} {s t : State} (h : BlockInv s) (hexec : exec i s = .next t) : BlockInv t := by
  obtain ⟨-, v, e, rfl⟩ | ⟨-, e, rfl⟩ | ⟨-, ty, p, henc⟩ | ⟨-, rfl⟩ | ⟨b, -, rfl⟩ := exec_cases hexec
  · exact h.host ..
  · exact h.host ..
  · exact henc.keeps_blockInv h
  · exact decReset_keeps_blockInv h
  · exact (decTransition_keeps_blockInv b h).host ..

theorem issue_keeps_blockInv {w : Word} {s t : State} (h : BlockInv s) (hissue : issue w s = .next t) :
    BlockInv t := by
  cases hdecode : decodeWord w with
  | ok i =>
    rw [issue, hdecode] at hissue
    exact exec_keeps_blockInv h hissue
  | error e =>
    rw [issue_of_decodeWord_error hdecode] at hissue
    cases hissue
    exact h.host ..

/-- Settles O58: the five things a step can do, by `step_cases`. -/
theorem stepKeepsInvariant : Obligations.StepKeepsInvariant := by
  unfold Obligations.StepKeepsInvariant
  intro s t hinv hstep
  obtain ⟨-, rfl⟩ | ⟨rest, -, rfl⟩ | ⟨off, n, rest, r, -, -, rfl⟩ | ⟨off, n, v, rest, r, -, hcheck, -, rfl⟩ |
    ⟨off, n, v, rest, r, -, -, -, hissue⟩ := step_cases hstep
  case inl => exact hinv
  case inr.inl => exact BlockInv.host resetMeetsInvariant ..
  case inr.inr.inl => exact hinv.host ..
  case inr.inr.inr.inl => exact locWrite_keeps_blockInv (hinv.host ..) v hcheck
  case inr.inr.inr.inr => exact issue_keeps_blockInv (hinv.host ..) hissue

/-! ### A decoded frame -/

/-- With D_FRAME_OK the decoder hunts, and the whole payload and its CRC are recorded (R182). -/
theorem BlockInv.of_frameOk {s : State} (h : BlockInv s) (hevent : s.devent = .frameOk) :
    s.dstate = .hunt ∧ CrcAgrees s ∧ DbufZeroFrom s s.dlen.toNat := by
  obtain ⟨-, -, hnoEvent, -, hzero, hrec⟩ := h
  have hstate : s.dstate = .hunt := by
    by_contra hne
    cases hevent.symm.trans (hnoEvent hne)
  rw [hstate, stateRecord, hevent] at hrec
  obtain ⟨⟨hlegal, hcnt⟩, hcalc, hcrc⟩ := hrec
  rw [hcnt] at hzero
  exact ⟨hstate, ⟨⟨hlegal, hcnt⟩, hcalc, hcrc⟩, hzero⟩

/-- A command other than DEC_RESET and the SOF byte leaves a decoder in HUNT alone. -/
theorem exec_sameDecoder {i : Instr} {s t : State} (hstate : s.dstate = .hunt) (hreset : i ≠ .decReset)
    (hsof : i ≠ .decByte 0x24) (hexec : exec i s = .next t) : SameDecoder s t := by
  obtain ⟨-, v, e, rfl⟩ | ⟨-, e, rfl⟩ | ⟨-, ty, p, henc⟩ | ⟨hi, -⟩ | ⟨b, hi, rfl⟩ := exec_cases hexec
  case inl => exact ⟨⟨rfl, rfl, rfl, rfl, rfl, rfl, rfl⟩, fun _ _ => rfl⟩
  case inr.inl => exact ⟨⟨rfl, rfl, rfl, rfl, rfl, rfl, rfl⟩, fun _ _ => rfl⟩
  case inr.inr.inl =>
    refine ⟨?_, fun a ha => henc.read_outside (.inr (by omega))⟩
    rw [henc.2]
    exact ⟨rfl, rfl, rfl, rfl, rfl, rfl, rfl⟩
  case inr.inr.inr.inl => exact absurd hi hreset
  case inr.inr.inr.inr =>
    have hb : b ≠ 0x24 := fun hb => hsof (hb ▸ hi)
    rw [decTransition_hunt hstate, decHunt_noise s hb]
    exact ⟨⟨rfl, rfl, rfl, rfl, rfl, rfl, rfl⟩, fun _ _ => rfl⟩

/-- Settles O49: the decoder of the state with D_FRAME_OK hunts, so the command leaves it alone. -/
theorem decodedFrameStaysValid : Obligations.DecodedFrameStaysValid := by
  unfold Obligations.DecodedFrameStaysValid
  intro i s t hinv hevent hreset hsof hexec
  obtain ⟨hstate, ⟨-, -, hcrc⟩, hzero⟩ := hinv.of_frameOk hevent
  have hsame := exec_sameDecoder hstate hreset hsof hexec
  have hload := hsame.load_eq 256
  obtain ⟨⟨htevent, htstate, htype, hlen, htcrc, htcalc, -⟩, hread⟩ := hsame
  exact ⟨htevent.trans hevent, htstate.trans hstate, htype, hlen, htcrc, htcalc.trans hcrc.symm, hload,
    fun j hj hj' => (hread _ (Nat.le_add_right ..)).trans (hzero j hj hj')⟩

end Sys2Proof.Machine
end

section
/-! PROOFS. The host's pseudo-instructions (30_encoding.md R77): LOAD_IBUF by bytes and by words, the CRC of an image
loaded in pieces, and the encode commands driven as the source's encoders are called (41_encode.md R146). -/

namespace Sys2Proof.Machine

/-! ### LOAD_IBUF -/

/-- A host whose next event is an IBUF write that passes the checks of R52 goes on with the bytes stored. -/
theorem hostRuns_ibuf_write {off n : Nat} (hlo : 0x100 ≤ off) (hhi : off < 0x200) (hn : n = 1 ∨ n = 4)
    (halign : n = 4 → off % 4 = 0) (v : Word) (es : List HostEvent) (s : State) :
    hostRuns (.write off n v :: es) s =
      hostRuns es { s with mem := s.mem.store off (writtenBytes n v), readData := none } :=
  runSteps_succ (step_of_ibuf_write rfl hlo hhi hn halign)

theorem writtenBytes_byte (b : Byte) : writtenBytes 1 (b.zeroExtend 32) = [b] := by
  have hlow : (b.zeroExtend 32).extractLsb' 0 8 = b := by
    apply BitVec.eq_of_getLsbD_eq
    intro i hi
    simp [hi, show i < 32 by omega]
  rw [writtenBytes, if_pos rfl, hlow]

theorem writtenBytes_word (b0 b1 b2 b3 : Byte) : writtenBytes 4 (ofLe32 b0 b1 b2 b3) = [b0, b1, b2, b3] := by
  simp [writtenBytes, le32, ofLe32]

/-- A second store right after the first is one store of both sequences. -/
theorem read_store_append (m : Memory) (off : Nat) (as bs : List Byte) (a : Nat) :
    ((m.store off as).store (off + as.length) bs).read a = (m.store off (as ++ bs)).read a := by
  simp only [read_store, List.length_append]
  by_cases has : off ≤ a ∧ a < off + as.length
  · rw [if_neg (by omega), if_pos has, if_pos (by omega), List.getD_append _ _ _ _ (by omega)]
  by_cases hbs : off + as.length ≤ a ∧ a < off + as.length + bs.length
  · rw [if_pos hbs, if_pos (by omega), List.getD_append_right _ _ _ _ (by omega), Nat.sub_sub]
  · rw [if_neg hbs, if_neg has, if_neg (by omega)]

/-- The state `s` after host writes of the bytes `bs` that left the memory `m`: the last write returned no data. -/
def afterWrites (m : Memory) (bs : List Byte) (s : State) : State :=
  { s with mem := m, readData := if bs.isEmpty then s.readData else none }

/-- The events `ws` are host writes that store the bytes `bs` from the offset `off` on, whatever the host does next. -/
def StoresBytes (ws : List HostEvent) (off : Nat) (bs : List Byte) (s : State) : Prop :=
  ∃ m, (∀ es, hostRuns (ws ++ es) s = hostRuns es (afterWrites m bs s)) ∧ ∀ a, m.read a = (s.mem.store off bs).read a

/-- One write of the bytes `as`, and the writes of the bytes after them. -/
theorem StoresBytes.cons {off n : Nat} {v : Word} {as bs : List Byte} {ws : List HostEvent} {s : State}
    (hlo : 0x100 ≤ off) (hhi : off < 0x200) (hn : n = 1 ∨ n = 4) (halign : n = 4 → off % 4 = 0)
    (hv : writtenBytes n v = as) (has : as ≠ [])
    (h : StoresBytes ws (off + as.length) bs { s with mem := s.mem.store off as, readData := none }) :
    StoresBytes (.write off n v :: ws) off (as ++ bs) s := by
  obtain ⟨m, hrun, hread⟩ := h
  refine ⟨m, fun es => ?_, fun a => (hread a).trans (read_store_append ..)⟩
  rw [List.cons_append, hostRuns_ibuf_write hlo hhi hn halign, hv, hrun]
  simp [afterWrites, has]

theorem byteWrites_stores {off : Nat} {bs : List Byte} (hlo : 0x100 ≤ off) (hhi : off + bs.length ≤ 0x200)
    (s : State) : StoresBytes (byteWrites off bs) off bs s := by
  induction bs generalizing off s with
  | nil => exact ⟨s.mem, fun _ => rfl, fun a => by rw [read_store_outside (by simp; omega)]⟩
  | cons b bs ih =>
    rw [List.length_cons] at hhi
    exact .cons (as := [b]) hlo (by omega) (.inl rfl) nofun (writtenBytes_byte b) nofun (ih (by omega) (by omega) _)

theorem wordWrites_stores {off : Nat} {bs : List Byte} (hlo : 0x100 ≤ off) (halign : off % 4 = 0)
    (hhi : off + bs.length ≤ 0x200) (s : State) : StoresBytes (wordWrites off bs) off bs s := by
  induction off, bs using wordWrites.induct generalizing s with
  | case1 off b0 b1 b2 b3 bs ih =>
    simp only [List.length_cons] at hhi
    exact .cons (as := [b0, b1, b2, b3]) hlo (by omega) (.inr rfl) (fun _ => halign) (writtenBytes_word b0 b1 b2 b3)
      nofun (ih (by omega) (by omega) (by omega) _)
  | case2 off bs hshort =>
    rw [wordWrites.eq_2 off bs hshort]
    exact byteWrites_stores hlo hhi s

theorem loadIbuf_stores {bs : List Byte} (h : bs.length ≤ 256) (s : State) :
    StoresBytes (loadIbuf bs) 0x100 bs s :=
  byteWrites_stores (Nat.le_refl _) (by omega) s

theorem StoresBytes.run {ws : List HostEvent} {off : Nat} {bs : List Byte} {s : State} (h : StoresBytes ws off bs s) :
    ∃ m, hostRuns ws s = .next { afterWrites m bs s with pending := [] } ∧
      ∀ a, m.read a = (s.mem.store off bs).read a := by
  obtain ⟨m, hrun, hread⟩ := h
  refine ⟨m, ?_, hread⟩
  rw [← List.append_nil ws, hrun, hostRuns_nil]

/-- Settles O30: the stored bytes are read one at a time. -/
theorem loadIbufFillsIbuf : Obligations.LoadIbufFillsIbuf := by
  unfold Obligations.LoadIbufFillsIbuf
  intro bs s hlen
  obtain ⟨m, hrun, hread⟩ := (loadIbuf_stores hlen s).run
  exact ⟨m, _, hrun, fun a => (hread a).trans (read_store ..)⟩

/-- Settles O31: both forms store the same bytes at the same place. -/
theorem loadIbufByWordsIsTheSame : Obligations.LoadIbufByWordsIsTheSame := by
  unfold Obligations.LoadIbufByWordsIsTheSame
  intro bs s hlen
  have hwords : StoresBytes (loadIbufByWords bs) 0x100 bs s := wordWrites_stores (Nat.le_refl _) rfl (by omega) s
  obtain ⟨m, hrun, hread⟩ := hwords.run
  obtain ⟨m', hrun', hread'⟩ := (loadIbuf_stores hlen s).run
  exact ⟨_, _, hrun, hrun', rfl, fun a => (hread a).trans (hread' a).symm⟩

/-! ### The CRC of an image in pieces -/

/-- The states differ in CMD, ACC, OPERR, IBUF and the model's own fields only. -/
def OnlyCrcAndIbuf (s t : State) : Prop :=
  (∃ cmd acc operr mem pending readData, t = { s with cmd, acc, operr, mem, pending, readData }) ∧
    ∀ a, a < 0x100 ∨ 0x200 ≤ a → t.mem.read a = s.mem.read a

theorem OnlyCrcAndIbuf.trans {s t u : State} (h : OnlyCrcAndIbuf s t) (h' : OnlyCrcAndIbuf t u) :
    OnlyCrcAndIbuf s u := by
  obtain ⟨⟨_, _, _, _, _, _, rfl⟩, hread⟩ := h
  obtain ⟨⟨_, _, _, _, _, _, rfl⟩, hread'⟩ := h'
  exact ⟨⟨_, _, _, _, _, _, rfl⟩, fun a ha => (hread' a ha).trans (hread a ha)⟩

/-- LOAD_IBUF of a piece and CRC_UPDATE over it continue the CRC with the piece padded to whole words (R113). -/
theorem hostRuns_crcPiece {p : List Byte} (h : p.length ≤ 256) (es : List HostEvent) (s : State) : ∃ t,
    hostRuns (loadIbuf p ++ commandLine (.crcUpdate p.length) :: es) s = hostRuns es t ∧
      t.acc = crcRaw (pad4 p) s.acc ∧ t.operr = .ok ∧ OnlyCrcAndIbuf s t := by
  obtain ⟨m, hrun, hread⟩ := loadIbuf_stores h s
  have hload : m.load 0x100 p.length = p := (load_congr fun _ _ => hread _).trans (load_store_same ..)
  have hwf : WellFormed (.crcUpdate p.length) := decide_eq_true (by omega)
  rw [hrun, hostRuns_commandLine hwf (exec_crcUpdate_of_le h _) rfl]
  refine ⟨_, rfl, ?_, rfl, ⟨_, _, _, _, _, _, rfl⟩, fun a ha => (hread a).trans (read_store_outside (by omega))⟩
  exact congrArg (fun bs => crcRaw (pad4 bs) s.acc) hload

/-- The CRC accumulated over pieces, each padded to whole words. -/
def crcOfPieces (ps : List (List Byte)) (c : Word) : Word := ps.foldl (fun c p => crcRaw (pad4 p) c) c

theorem hostRuns_crcPieces {ps : List (List Byte)} (h : ∀ p ∈ ps, p.length ≤ 256) (s : State) (hok : s.operr = .ok) :
    ∃ t, hostRuns (crcPieces ps) s = .next t ∧ t.acc = crcOfPieces ps s.acc ∧ t.operr = .ok ∧ OnlyCrcAndIbuf s t ∧
      t.pending = [] := by
  induction ps generalizing s with
  | nil => exact ⟨_, hostRuns_nil s, rfl, hok, ⟨⟨_, _, _, _, _, _, rfl⟩, fun _ _ => rfl⟩, rfl⟩
  | cons p ps ih =>
    rw [List.forall_mem_cons] at h
    obtain ⟨hp, hps⟩ := h
    obtain ⟨t, hrun, hacc, hok', hsame⟩ := hostRuns_crcPiece hp (crcPieces ps) s
    obtain ⟨u, hrun', hacc', hok'', hsame', hpending⟩ := ih hps t hok'
    rw [hacc] at hacc'
    exact ⟨u, hrun.trans hrun', hacc', hok'', hsame.trans hsame', hpending⟩

/-- Whole words need no padding, so the CRC goes on over them (R118). -/
theorem crcRaw_pad4_append {as : List Byte} (h : as.length % 4 = 0) (bs : List Byte) (c : Word) :
    crcRaw (pad4 (as ++ bs)) c = crcRaw (pad4 bs) (crcRaw (pad4 as) c) := by
  have hpad : pad4 (as ++ bs) = as ++ pad4 bs := by
    rw [pad4, pad4, List.length_append, Nat.add_mod, h, Nat.zero_add, Nat.mod_mod, List.append_assoc]
  rw [hpad, crcRaw_append, pad4_of_dvd h]

theorem crcOfPieces_append_singleton {ps : List (List Byte)} (h : ∀ p ∈ ps, p.length % 4 = 0) (last : List Byte)
    (c : Word) : crcOfPieces (ps ++ [last]) c = crcRaw (pad4 (ps ++ [last]).flatten) c := by
  induction ps generalizing c with
  | nil => rw [List.nil_append, List.flatten_singleton]; rfl
  | cons p ps ih =>
    rw [List.forall_mem_cons] at h
    obtain ⟨hp, hps⟩ := h
    rw [List.cons_append, List.flatten_cons, crcRaw_pad4_append hp, ← ih hps]
    rfl

theorem crcOfPieces_piecesOf {fuel : Nat} {image : List Byte} (h : image.length ≤ fuel) (c : Word) :
    crcOfPieces (piecesOf fuel image) c = crcRaw (pad4 image) c := by
  induction fuel, image using piecesOf.induct generalizing c with
  | case1 image =>
    obtain rfl : image = [] := List.length_eq_zero_iff.mp (Nat.le_zero.mp h)
    rfl
  | case2 fuel => rfl
  | case3 fuel image hne ih =>
    have hdrop : (image.drop 256).length ≤ fuel := by
      have := List.length_pos_iff.mpr hne
      rw [List.length_drop]; omega
    rw [piecesOf.eq_3 image fuel hne]
    change crcOfPieces (piecesOf fuel (image.drop 256)) (crcRaw (pad4 (image.take 256)) c) = _
    rw [ih hdrop]
    by_cases hlong : 256 ≤ image.length
    · have htake : (image.take 256).length % 4 = 0 := by rw [List.length_take, Nat.min_eq_left hlong]
      rw [← crcRaw_pad4_append htake, List.take_append_drop]
    · rw [List.drop_of_length_le (by omega), List.take_of_length_le (by omega)]
      rfl

theorem length_of_mem_piecesOf {fuel : Nat} {image p : List Byte} (hp : p ∈ piecesOf fuel image) : p.length ≤ 256 := by
  induction fuel, image using piecesOf.induct with
  | case1 image => cases hp
  | case2 fuel => cases hp
  | case3 fuel image hne ih =>
    rw [piecesOf.eq_3 image fuel hne] at hp
    obtain rfl | hp := List.mem_cons.mp hp
    · rw [List.length_take]; exact Nat.min_le_left ..
    · exact ih hp

/-- CRC_INIT, then the pieces of an image: ACC starts at the core's start value. -/
theorem hostRuns_crcInit_pieces {ps : List (List Byte)} (h : ∀ p ∈ ps, p.length ≤ 256) (s : State) : ∃ t,
    hostRuns (commandLine .crcInit :: crcPieces ps) s = .next t ∧ t.acc = crcOfPieces ps 0xFFFFFFFF ∧ t.operr = .ok ∧
      OnlyCrcAndIbuf s t ∧ t.pending = [] := by
  set u : State :=
    { s with cmd := encode .crcInit, acc := 0xFFFFFFFF, operr := .ok, pending := crcPieces ps, readData := none }
  have hinit : hostRuns (commandLine .crcInit :: crcPieces ps) s = hostRuns (crcPieces ps) u :=
    hostRuns_commandLine rfl (exec_crcInit _) rfl
  obtain ⟨t, hrun, hacc, hok, hsame, hpending⟩ := hostRuns_crcPieces h u rfl
  exact ⟨t, hinit.trans hrun, hacc, hok, .trans ⟨⟨_, _, _, _, _, _, rfl⟩, fun _ _ => rfl⟩ hsame, hpending⟩

/-- Settles O28: the pieces before the last one are whole words, so the CRC is the one of their concatenation. -/
theorem chunkedCrcEqualsImageCrc : Obligations.ChunkedCrcEqualsImageCrc := by
  unfold Obligations.ChunkedCrcEqualsImageCrc
  intro ps last s hps hlast
  have hlen : ∀ p ∈ ps ++ [last], p.length ≤ 256 := by
    rw [List.forall_mem_append, List.forall_mem_singleton]
    exact ⟨fun p hp => (hps p hp).2, hlast⟩
  obtain ⟨t, hrun, hacc, -⟩ := hostRuns_crcInit_pieces hlen s
  exact ⟨t, hrun, hacc.trans (crcOfPieces_append_singleton (fun p hp => (hps p hp).1) last _)⟩

/-- Settles O29: the pieces of 256 bytes are whole words, and the run changes nothing outside CMD, ACC, OPERR, IBUF. -/
theorem crcImageComputesFullImageCrc : Obligations.CrcImageComputesFullImageCrc := by
  unfold Obligations.CrcImageComputesFullImageCrc
  intro image s
  obtain ⟨t, hrun, hacc, hok, ⟨⟨_, _, _, _, _, _, rfl⟩, hread⟩, hpending⟩ :=
    hostRuns_crcInit_pieces (fun _ => length_of_mem_piecesOf (fuel := image.length) (image := image)) s
  exact ⟨_, hrun, hacc.trans (crcOfPieces_piecesOf (Nat.le_refl _) _), hok, rfl, rfl, rfl, rfl, rfl, rfl, rfl, rfl, rfl,
    rfl, rfl, hread, hpending⟩

/-! ### The encode commands as the source's encoders -/

theorem hostRuns_setArg0 (v : Word) (es : List HostEvent) (s : State) :
    hostRuns (setArg0 v :: es) s = hostRuns es { s with arg0 := v, readData := none } :=
  runSteps_succ ((operandRegisterWriteStoresValue _ v es).1 rfl)

theorem hostRuns_setArg1 (v : Word) (es : List HostEvent) (s : State) :
    hostRuns (setArg1 v :: es) s = hostRuns es { s with arg1 := v, readData := none } :=
  runSteps_succ ((operandRegisterWriteStoresValue _ v es).2 rfl)

/-- A host that issues an encode command whose own check passes finds the frame of its operands in OBUF. -/
theorem hostRuns_encode {i : Instr} (hwf : WellFormed i) (hfam : familyOf i = .enc) (hcheck : ownCheck i = .ok)
    (s : State) : ∃ t, hostRuns [commandLine i] s = .next t ∧ t.mem.load 0x200 t.olen.toNat =
      frame (encodedType i) (encodedPayload s i) (typeCrc (encodedType i) (encodedPayload s i)) := by
  set s' : State := { s with cmd := encode i, pending := [], readData := none }
  obtain ⟨t, hnext, hcode, -⟩ := exec_completesWith i s'
  have henc := exec_enc_ok hfam hnext (hcode.trans hcheck)
  have hpayload : encodedPayload s' i = encodedPayload s i := encodedPayload_congr rfl rfl rfl
  have hpending : t.pending = [] := by rw [henc.2]; rfl
  rw [hpayload] at henc
  rw [hostRuns_commandLine hwf hnext hpending, hostRuns_nil]
  exact ⟨_, rfl, henc.load_olen⟩

/-- Settles O36: the operands of each command are those of the source's function, and so is the CRC of its type. -/
theorem encodersAgreeWithSource : Obligations.EncodersAgreeWithSource := by
  unfold Obligations.EncodersAgreeWithSource
  refine ⟨fun image s _ => ?header, fun page s => ?bulkHeader, fun chunk s h1 h256 => ?data, fun b s hb => ?command⟩
  case header =>
    rw [hostRuns_setArg0, hostRuns_setArg1]
    obtain ⟨t, hrun, hframe⟩ := hostRuns_encode (i := .encHeader) rfl rfl rfl _
    exact ⟨t, hrun, hframe.trans (congrArg (frame typeHeader _) (typeCrc_header _))⟩
  case bulkHeader =>
    rw [hostRuns_setArg0]
    obtain ⟨t, hrun, hframe⟩ := hostRuns_encode (i := .encBulkHeader) rfl rfl rfl _
    exact ⟨t, hrun, hframe.trans (congrArg (frame typeBulkHeader _) (typeCrc_bulkHeader _))⟩
  case data =>
    obtain ⟨m, hload, hread⟩ := loadIbuf_stores h256 s
    have hchunk : m.load 0x100 chunk.length = chunk := (load_congr fun _ _ => hread _).trans (load_store_same ..)
    have hwf : WellFormed (.encData chunk.length) := decide_eq_true (by omega)
    obtain ⟨t, hrun, hframe⟩ := hostRuns_encode hwf rfl (if_neg (by omega)) (afterWrites m chunk s)
    have hpayload : encodedPayload (afterWrites m chunk s) (.encData chunk.length) = chunk := hchunk
    rw [hpayload] at hframe
    rw [hload]
    exact ⟨t, hrun, hframe.trans (congrArg (frame typeData chunk) (typeCrc_data chunk))⟩
  case command =>
    obtain ⟨t, hrun, hframe⟩ := hostRuns_encode (i := .encCommand b) rfl rfl (if_neg (by omega)) s
    exact ⟨t, hrun, hframe.trans (congrArg (frame typeCommand _) (typeCrc_command [b]))⟩

end Sys2Proof.Machine
end

section
/-! PROOFS. Frames through the decoder (42_decode.md section 3): the host's FEED as a fold of the decoder's
transitions, the parts of a frame one after the other, and the frames that are accepted or end with D_BAD_CRC. -/

namespace Sys2Proof.Machine

/-- Settles O41: the row of DEC_BYTE, and its only outcome. -/
theorem decByteAlwaysCompletes : Obligations.DecByteAlwaysCompletes := by
  unfold Obligations.DecByteAlwaysCompletes
  exact ⟨fun w h => decodeWord_of_mask (op := 0x21) h rfl, fun b s => ⟨_, exec_decByte b s, rfl⟩⟩

/-! ### FEED is a fold of the transitions -/

/-- The decoder after the bytes `bs`, one transition for each. -/
def decodeAll (bs : List Byte) (s : State) : State := bs.foldl (fun u b => decTransition b u) s

@[simp] theorem decodeAll_nil (s : State) : decodeAll [] s = s := rfl

@[simp] theorem decodeAll_cons (b : Byte) (bs : List Byte) (s : State) :
    decodeAll (b :: bs) s = decodeAll bs (decTransition b s) := rfl

theorem decodeAll_append (as bs : List Byte) (s : State) :
    decodeAll (as ++ bs) s = decodeAll bs (decodeAll as s) :=
  List.foldl_append

/-- The fields that a command line writes besides the effects of its command. -/
def State.withHost (s : State) (cmd : Word) (operr : OpErr) (pending : List HostEvent) (readData : Option Word) :
    State :=
  { s with cmd, operr, pending, readData }

/-- A transition reads and writes none of these fields. -/
theorem decTransition_withHost (b : Byte) (s : State) (cmd : Word) (operr : OpErr) (pending : List HostEvent)
    (readData : Option Word) :
    decTransition b (s.withHost cmd operr pending readData) =
      (decTransition b s).withHost cmd operr pending readData := by
  set t := s.withHost cmd operr pending readData
  have ht : t.dstate = s.dstate := rfl
  cases hs : s.dstate <;> rw [hs] at ht
  case hunt => rw [decTransition_hunt ht, decTransition_hunt hs]; unfold decHunt; split <;> rfl
  case typ => rw [decTransition_typ ht, decTransition_typ hs]; unfold decType; (repeat' split) <;> rfl
  case lenHi =>
    rw [decTransition_lenHi ht, decTransition_lenHi hs]
    cases hlegal : legalLength s.dtype (dlenWithHi b s).toNat with
    | true => rw [decLenHi_legal hlegal, decLenHi_legal (s := t) hlegal]; rfl
    | false => rw [decLenHi_illegal hlegal, decLenHi_illegal (s := t) hlegal]; rfl
  case crc3 =>
    rw [decTransition_crc3 ht, decTransition_crc3 hs]
    by_cases hcrc : computedCrc s = dcrcWith 3 b s
    · rw [decCrc3_agrees hcrc, decCrc3_agrees (s := t) hcrc]; rfl
    · rw [decCrc3_differs hcrc, decCrc3_differs (s := t) hcrc]; rfl
  case cr => rw [decTransition_cr ht, decTransition_cr hs]; unfold decCr; split <;> rfl
  case lf => rw [decTransition_lf ht, decTransition_lf hs]; unfold decLf; split <;> rfl
  all_goals simp only [decTransition, ht, hs]; rfl

/-- FEED runs the decoder over its bytes, and changes only fields of the host besides (R77, R171). -/
theorem hostRuns_feed (bs : List Byte) (s : State) : ∃ cmd operr readData,
    hostRuns (feed bs) s = .next ((decodeAll bs s).withHost cmd operr [] readData) := by
  suffices h : ∀ u cmd operr pending readData, ∃ cmd' operr' readData',
      hostRuns (feed bs) (State.withHost u cmd operr pending readData) =
        .next ((decodeAll bs u).withHost cmd' operr' [] readData') from
    h s s.cmd s.operr s.pending s.readData
  induction bs with
  | nil => exact fun u cmd operr _ readData => ⟨cmd, operr, readData, rfl⟩
  | cons b bs ih =>
    intro u cmd operr pending readData
    have hexec : exec (.decByte b) (u.withHost (encode (.decByte b)) operr (feed bs) none) =
        .next ((decTransition b u).withHost (encode (.decByte b)) .ok (feed bs) none) := by
      rw [exec_decByte, decTransition_withHost]
      rfl
    have hrun : hostRuns (feed (b :: bs)) (u.withHost cmd operr pending readData) = hostRuns (feed bs) _ :=
      hostRuns_commandLine rfl hexec rfl
    rw [hrun]
    exact ih ..

/-! ### The decoder in the middle of a frame -/

/-- A frame is being parsed and no event stands. -/
def MidFrame (s : State) : Prop := s.dstate ≠ .hunt ∧ s.devent = .noEvent

/-- The decoder is in the middle of a frame before and after each of the bytes. -/
def MidFrameThrough : List Byte → State → Prop
  | [], s => MidFrame s
  | b :: bs, s => MidFrame s ∧ MidFrameThrough bs (decTransition b s)

theorem MidFrameThrough.append {as bs : List Byte} {s : State} (ha : MidFrameThrough as s)
    (hb : MidFrameThrough bs (decodeAll as s)) : MidFrameThrough (as ++ bs) s := by
  induction as generalizing s with
  | nil => exact hb
  | cons a as ih =>
    obtain ⟨hs, ha⟩ := ha
    exact ⟨hs, ih ha hb⟩

theorem MidFrameThrough.take {bs : List Byte} {s : State} (h : MidFrameThrough bs s) (k : Nat) :
    MidFrame (decodeAll (bs.take k) s) := by
  induction bs generalizing s k with
  | nil => rwa [List.take_nil]
  | cons b bs ih =>
    obtain ⟨hs, h⟩ := h
    cases k with
    | zero => exact hs
    | succ k => exact ih h k

/-! ### A field put together from its bytes -/

/-- A 16-bit value from its two byte lanes, as LEN_LO and LEN_HI put it together (R174, R175). -/
theorem or_lanes16 (v : BitVec 16) :
    (v.extractLsb' 0 8).zeroExtend 16 ||| ((v.extractLsb' 8 8).zeroExtend 16 <<< 8) = v := by
  apply BitVec.eq_of_getLsbD_eq
  intro i hi
  by_cases h : i < 8
  · simp [h, hi]
  · simp [h, hi, show i - 8 < 8 by omega, show 8 + (i - 8) = i by omega]

/-- The bits of byte lane `k` of a word, put back at their place. -/
theorem lane_getLsbD (c : Word) (k : Nat) {i : Nat} (hi : i < 32) :
    ((c.extractLsb' (8 * k) 8).zeroExtend 32 <<< (8 * k)).getLsbD i =
      (decide (8 * k ≤ i ∧ i < 8 * (k + 1)) && c.getLsbD i) := by
  simp only [BitVec.getLsbD_shiftLeft, BitVec.getLsbD_setWidth, BitVec.getLsbD_extractLsb']
  by_cases hlo : i < 8 * k
  · simp [hlo, show ¬ 8 * k ≤ i by omega]
  · have hlane : i - 8 * k < 8 ↔ i < 8 * (k + 1) := by omega
    simp [hi, hlo, hlane, Nat.not_lt.mp hlo, show i - 8 * k < 32 by omega, show 8 * k + (i - 8 * k) = i by omega]

/-- A 32-bit value from its four byte lanes, as CRC0 to CRC3 put it together (R177, R178). -/
theorem or_lanes32 (c : Word) :
    (((0 : Word) ||| (c.extractLsb' 0 8).zeroExtend 32 <<< (8 * 0)) ||| (c.extractLsb' 8 8).zeroExtend 32 <<< (8 * 1))
      ||| (c.extractLsb' 16 8).zeroExtend 32 <<< (8 * 2) ||| (c.extractLsb' 24 8).zeroExtend 32 <<< (8 * 3) = c := by
  apply BitVec.eq_of_getLsbD_eq
  intro i hi
  have h0 := lane_getLsbD c 0 hi
  have h1 := lane_getLsbD c 1 hi
  have h2 := lane_getLsbD c 2 hi
  have h3 := lane_getLsbD c 3 hi
  simp only [BitVec.getLsbD_or, h0, h1, h2, h3]
  cases c.getLsbD i with
  | false => simp
  | true => simp; omega

/-! ### The header of a frame -/

/-- The decoder inside a frame of type `ty` and length `len`, with the payload bytes `pre` received so far. -/
structure Receiving (ty : Byte) (len : Nat) (pre : List Byte) (s : State) : Prop where
  devent : s.devent = .noEvent
  dtype : s.dtype = ty
  dlen : s.dlen.toNat = len
  dcrc : s.dcrc = 0
  dcnt : s.dcnt.toNat = pre.length
  loaded : s.mem.load 0x400 pre.length = pre
  dstate : s.dstate = if pre.length < len then .payload else .crc0

theorem Receiving.midFrame {ty : Byte} {len : Nat} {pre : List Byte} {s : State} (h : Receiving ty len pre s) :
    MidFrame s := by
  refine ⟨?_, h.devent⟩
  rw [h.dstate]
  split <;> nofun

/-- The three bytes after an SOF, from the state that the SOF leaves (R172 to R175). -/
theorem header_receiving {ty : Byte} {len : Nat} {s : State} (hlegal : legalLength ty len = true)
    (hs : s.dstate = .hunt) :
    MidFrameThrough (ty :: le16 (BitVec.ofNat 16 len)) (decTransition 0x24 s) ∧
      Receiving ty len [] (decodeAll (ty :: le16 (BitVec.ofNat 16 len)) (decTransition 0x24 s)) := by
  obtain ⟨hlo, hhi, htype⟩ := legalLength_bounds hlegal
  set v := BitVec.ofNat 16 len with hv
  have hlen : v.toNat = len := by rw [hv, BitVec.toNat_ofNat, Nat.mod_eq_of_lt (by omega)]
  rw [decTransition_hunt hs, decHunt_sof]
  set s0 : State := { clearDecoder s with devent := .noEvent, dstate := .typ }
  set s1 : State := { s0 with dtype := ty, dstate := .lenLo }
  set s2 : State := { s1 with dlen := (v.extractLsb' 0 8).zeroExtend 16, dstate := .lenHi }
  set s3 : State := { s2 with dlen := v, dstate := .payload }
  have h1 : decTransition ty s0 = s1 := (decTransition_typ rfl).trans (decType_known s0 htype)
  have h2 : decTransition (v.extractLsb' 0 8) s1 = s2 := decTransition_lenLo rfl
  have hfield : dlenWithHi (v.extractLsb' 8 8) s2 = v := or_lanes16 v
  have h3 : decTransition (v.extractLsb' 8 8) s2 = s3 := by
    rw [decTransition_lenHi rfl, decLenHi_legal (by rw [hfield, hlen]; exact hlegal), hfield]
  simp only [le16, MidFrameThrough, decodeAll_cons, decodeAll_nil, h1, h2, h3]
  exact ⟨⟨⟨nofun, rfl⟩, ⟨nofun, rfl⟩, ⟨nofun, rfl⟩, nofun, rfl⟩, rfl, rfl, hlen, rfl, rfl, rfl, (if_pos hlo).symm⟩

/-! ### The payload -/

theorem Receiving.payloadByte {ty : Byte} {len : Nat} {pre : List Byte} {s : State}
    (h : Receiving ty len pre s) (hlen : len ≤ 256) (hlt : pre.length < len) (b : Byte) :
    Receiving ty len (pre ++ [b]) (decTransition b s) := by
  have hcnt : s.dcnt.toNat < 256 := by rw [h.dcnt]; omega
  have hsucc : (s.dcnt + 1).toNat = (pre ++ [b]).length := by
    rw [dcnt_succ_toNat hcnt, h.dcnt, List.length_append, List.length_singleton]
  have hread := putDbuf_read hcnt s.mem b
  have hloaded : (putDbuf s.mem s.dcnt.toNat b).load 0x400 (pre ++ [b]).length = pre ++ [b] := by
    have hold : (putDbuf s.mem s.dcnt.toNat b).load 0x400 pre.length = pre :=
      (load_congr fun i hi => (hread _).trans (if_neg (by rw [h.dcnt]; omega))).trans h.loaded
    have hnew : (putDbuf s.mem s.dcnt.toNat b).load (0x400 + pre.length) 1 = [b] :=
      congrArg (· :: []) ((hread _).trans (if_pos (by rw [h.dcnt])))
    rw [List.length_append, List.length_singleton, load_append, hold, hnew]
  rw [decTransition_payload (h.dstate.trans (if_pos hlt)), decPayload]
  refine ⟨h.devent, h.dtype, h.dlen, h.dcrc, hsucc, hloaded, ?_⟩
  change (if (s.dcnt + 1).toNat = s.dlen.toNat then DState.crc0 else DState.payload) = _
  have hle : (pre ++ [b]).length ≤ len := by rw [List.length_append, List.length_singleton]; omega
  rw [hsucc, h.dlen]
  by_cases hlast : (pre ++ [b]).length = len
  · rw [if_pos hlast, if_neg (by omega)]
  · rw [if_neg hlast, if_pos (by omega)]

theorem Receiving.payload {ty : Byte} {len : Nat} {pre : List Byte} {s : State} (h : Receiving ty len pre s)
    (hlen : len ≤ 256) {bs : List Byte} (hbs : pre.length + bs.length = len) :
    MidFrameThrough bs s ∧ Receiving ty len (pre ++ bs) (decodeAll bs s) := by
  induction bs generalizing pre s with
  | nil => rw [List.append_nil]; exact ⟨h.midFrame, h⟩
  | cons b bs ih =>
    rw [List.length_cons] at hbs
    obtain ⟨hmid, hrec⟩ := ih (h.payloadByte hlen (by omega) b)
      (by rw [List.length_append, List.length_singleton]; omega)
    rw [List.append_assoc] at hrec
    exact ⟨⟨h.midFrame, hmid⟩, hrec⟩

/-! ### The CRC field -/

/-- The decoder before the last byte of the CRC field `c` of a frame of type `ty` with payload `p`. -/
structure LastCrcByteDue (ty : Byte) (p : List Byte) (c : Word) (s : State) : Prop where
  devent : s.devent = .noEvent
  dstate : s.dstate = .crc3
  dtype : s.dtype = ty
  dlen : s.dlen.toNat = p.length
  loaded : s.mem.load 0x400 p.length = p
  dcrc : dcrcWith 3 (c.extractLsb' 24 8) s = c

theorem Receiving.crcField {ty : Byte} {p : List Byte} {s : State} (h : Receiving ty p.length p s) (c : Word) :
    MidFrameThrough ((le32 c).take 3) s ∧ LastCrcByteDue ty p c (decodeAll ((le32 c).take 3) s) := by
  have hs : s.dstate = .crc0 := h.dstate.trans (if_neg (Nat.lt_irrefl _))
  set s1 : State := { s with dcrc := dcrcWith 0 (c.extractLsb' 0 8) s, dstate := .crc1 }
  set s2 : State := { s1 with dcrc := dcrcWith 1 (c.extractLsb' 8 8) s1, dstate := .crc2 }
  set s3 : State := { s2 with dcrc := dcrcWith 2 (c.extractLsb' 16 8) s2, dstate := .crc3 }
  have h1 : decTransition (c.extractLsb' 0 8) s = s1 := decTransition_crc0 hs
  have h2 : decTransition (c.extractLsb' 8 8) s1 = s2 := decTransition_crc1 rfl
  have h3 : decTransition (c.extractLsb' 16 8) s2 = s3 := decTransition_crc2 rfl
  have hcrc : dcrcWith 3 (c.extractLsb' 24 8) s3 = c := by
    have hlanes := or_lanes32 c
    rw [← h.dcrc] at hlanes
    exact hlanes
  simp only [le32, List.take_succ_cons, List.take_zero, MidFrameThrough, decodeAll_cons, decodeAll_nil, h1, h2, h3]
  exact ⟨⟨h.midFrame, ⟨nofun, h.devent⟩, ⟨nofun, h.devent⟩, nofun, h.devent⟩, h.devent, rfl, h.dtype, h.dlen, h.loaded,
    hcrc⟩

theorem LastCrcByteDue.computedCrc_eq {ty : Byte} {p : List Byte} {c : Word} {s : State}
    (h : LastCrcByteDue ty p c s) : computedCrc s = typeCrc ty p := by
  rw [computedCrc, h.dtype, h.dlen]
  exact congrArg (typeCrc ty) h.loaded

/-! ### A frame -/

/-- The bytes of a frame between its SOF and its last CRC byte (R78). -/
def frameBody (ty : Byte) (p : List Byte) (c : Word) : List Byte :=
  ty :: le16 (BitVec.ofNat 16 p.length) ++ p ++ (le32 c).take 3

theorem frameBody_length (ty : Byte) (p : List Byte) (c : Word) : (frameBody ty p c).length = p.length + 6 := by
  simp only [frameBody, le16, le32, List.length_append, List.length_cons, List.length_nil, List.take_succ_cons,
    List.take_zero]
  omega

theorem frame_eq_body (ty : Byte) (p : List Byte) (c : Word) :
    frame ty p c = 0x24 :: frameBody ty p c ++ [c.extractLsb' 24 8, 0x0D, 0x0A] := by
  simp [frame, frameBody, le32, Config.sof, Config.termCr, Config.termLf]

/-- A legal frame up to its last CRC byte is parsed, whatever its payload and its CRC field hold. -/
theorem frameBody_received {ty : Byte} {p : List Byte} {s : State} (hlegal : legalLength ty p.length = true)
    (hs : s.dstate = .hunt) (c : Word) :
    MidFrameThrough (frameBody ty p c) (decTransition 0x24 s) ∧
      LastCrcByteDue ty p c (decodeAll (frameBody ty p c) (decTransition 0x24 s)) := by
  obtain ⟨-, hhi, -⟩ := legalLength_bounds hlegal
  obtain ⟨hmidHeader, hheader⟩ := header_receiving hlegal hs
  obtain ⟨hmidPayload, hpayload⟩ := hheader.payload hhi (Nat.zero_add p.length)
  obtain ⟨hmidCrc, hcrc⟩ := hpayload.crcField c
  rw [frameBody, List.append_assoc, decodeAll_append, decodeAll_append]
  exact ⟨hmidHeader.append (hmidPayload.append hmidCrc), hcrc⟩

/-- In every proper nonempty part of the bytes that follow an SOF the frame is being parsed. -/
theorem midFrame_of_take {bs cs : List Byte} {s : State} (h : MidFrameThrough bs (decTransition 0x24 s)) {k : Nat}
    (hk : 0 < k) (hk' : k ≤ bs.length + 1) : MidFrame (decodeAll ((0x24 :: bs ++ cs).take k) s) := by
  obtain ⟨k, rfl⟩ : ∃ j, k = j + 1 := ⟨k - 1, by omega⟩
  rw [List.cons_append, List.take_succ_cons, List.take_append_of_le_length (by omega)]
  exact h.take k

/-- Through FEED: every proper nonempty part of the bytes leaves the frame being parsed. -/
theorem hostRuns_feed_midFrame {bs cs : List Byte} {s : State} (h : MidFrameThrough bs (decTransition 0x24 s))
    {k : Nat} (hk : 0 < k) (hk' : k ≤ bs.length + 1) :
    ∃ v, hostRuns (feed ((0x24 :: bs ++ cs).take k)) s = .next v ∧ MidFrame v := by
  obtain ⟨cmd, operr, readData, hrun⟩ := hostRuns_feed ((0x24 :: bs ++ cs).take k) s
  exact ⟨_, hrun, midFrame_of_take h hk hk'⟩

/-- The last CRC byte of a frame with a wrong CRC (R178). -/
theorem LastCrcByteDue.rejected {ty : Byte} {p : List Byte} {c : Word} {s : State} (h : LastCrcByteDue ty p c s)
    (hc : c ≠ typeCrc ty p) :
    decTransition (c.extractLsb' 24 8) s = derr .badCrc { s with dcrc := c, dcalc := typeCrc ty p } := by
  have hdiffers : computedCrc s ≠ dcrcWith 3 (c.extractLsb' 24 8) s := by
    rw [h.computedCrc_eq, h.dcrc]
    exact hc.symm
  rw [decTransition_crc3 h.dstate, decCrc3_differs hdiffers, h.computedCrc_eq, h.dcrc]

/-- The last CRC byte of a frame with the right CRC, and the first byte of the terminator (R178, R179). -/
theorem LastCrcByteDue.accepted {ty : Byte} {p : List Byte} {c : Word} {s : State}
    (h : LastCrcByteDue ty p c s) (hc : c = typeCrc ty p) :
    MidFrameThrough [c.extractLsb' 24 8, 0x0D] s ∧
      decodeAll [c.extractLsb' 24 8, 0x0D] s = { s with dcrc := c, dcalc := c, dstate := .lf } := by
  have hcalc : computedCrc s = c := h.computedCrc_eq.trans hc.symm
  have h1 : decTransition (c.extractLsb' 24 8) s = { s with dcrc := c, dcalc := c, dstate := .cr } := by
    rw [decTransition_crc3 h.dstate, decCrc3_agrees (hcalc.trans h.dcrc.symm), h.dcrc, hcalc]
  have h2 : decTransition 0x0D { s with dcrc := c, dcalc := c, dstate := .cr } =
      { s with dcrc := c, dcalc := c, dstate := .lf } :=
    (decTransition_cr rfl).trans (decCr_term _)
  simp only [MidFrameThrough, decodeAll_cons, decodeAll_nil, h1, h2]
  exact ⟨⟨⟨by rw [h.dstate]; nofun, h.devent⟩, ⟨nofun, h.devent⟩, nofun, h.devent⟩, trivial⟩

/-! ### The obligations -/

/-- Settles O52: the last CRC byte finds another CRC than the payload's; before it the frame is being parsed. -/
theorem wrongCrcEndsFrameAtLastCrcByte : Obligations.WrongCrcEndsFrameAtLastCrcByte := by
  unfold Obligations.WrongCrcEndsFrameAtLastCrcByte
  intro ty p c s hspec hc hs
  obtain ⟨hmid, hdue⟩ := frameBody_received ((legalLength_iff ..).mpr hspec) hs c
  have hlength := frameBody_length ty p c
  rw [frame_eq_body]
  refine ⟨?last, fun k hk hk' => hostRuns_feed_midFrame hmid hk (by omega)⟩
  case last =>
    have htake : (0x24 :: frameBody ty p c ++ [c.extractLsb' 24 8, 0x0D, 0x0A]).take (8 + p.length) =
        0x24 :: frameBody ty p c ++ [c.extractLsb' 24 8] := by
      rw [List.append_cons]
      exact List.take_left' (by simp only [List.length_append, List.length_cons, List.length_nil]; omega)
    obtain ⟨cmd, operr, readData, hrun⟩ := hostRuns_feed (0x24 :: frameBody ty p c ++ [c.extractLsb' 24 8]) s
    rw [List.cons_append, decodeAll_cons, decodeAll_append, decodeAll_cons, decodeAll_nil, hdue.rejected hc] at hrun
    rw [htake]
    exact ⟨_, hrun, rfl, rfl, rfl, rfl⟩

/-- Settles O51: the terminator follows the right CRC; before its last byte the frame is being parsed. -/
theorem legalFrameDecodes : Obligations.LegalFrameDecodes := by
  unfold Obligations.LegalFrameDecodes
  intro ty p s hspec hs
  obtain ⟨hmid, hdue⟩ := frameBody_received ((legalLength_iff ..).mpr hspec) hs (typeCrc ty p)
  obtain ⟨hmidLast, hlast⟩ := hdue.accepted rfl
  set c := typeCrc ty p
  have hframe : frame ty p c = 0x24 :: (frameBody ty p c ++ [c.extractLsb' 24 8, 0x0D]) ++ [0x0A] := by
    rw [frame_eq_body, List.cons_append, List.cons_append, List.append_assoc]; rfl
  have hlength : (frameBody ty p c ++ [c.extractLsb' 24 8, 0x0D]).length = p.length + 8 := by
    rw [List.length_append, frameBody_length]; rfl
  rw [hframe]
  refine ⟨?last, fun k hk hk' => ?earlier⟩
  case last =>
    obtain ⟨cmd, operr, readData, hrun⟩ := hostRuns_feed (frame ty p c) s
    rw [hframe, List.cons_append, decodeAll_cons, decodeAll_append, decodeAll_append, hlast, decodeAll_cons, decodeAll_nil,
      decTransition_lf rfl, decLf_term] at hrun
    exact ⟨_, hrun, rfl, rfl, hdue.dtype, hdue.dlen, hdue.loaded, rfl, rfl⟩
  case earlier =>
    obtain ⟨v, hrun, hmidFrame⟩ := hostRuns_feed_midFrame (cs := [0x0A]) (hmid.append hmidLast) hk (by omega)
    exact ⟨v, hrun, hmidFrame.symm⟩

/-- The payload of a frame stands after its four header bytes (R78). -/
theorem frame_payload (ty : Byte) (p : List Byte) (c : Word) : ((frame ty p c).drop 4).take p.length = p := by
  rw [frame, List.append_assoc, List.append_assoc]
  exact List.take_left' (l₁ := p) rfl

/-- Settles O50: the frame in OBUF has a legal length and the CRC of its type, so `legalFrameDecodes` accepts it. -/
theorem encodedFrameDecodes : Obligations.EncodedFrameDecodes := by
  unfold Obligations.EncodedFrameDecodes
  rintro i s t f hfam hexec hok hstate rfl
  have henc := exec_enc_ok hfam hexec hok
  obtain ⟨⟨u, hrun, hevent, hstate', htype, hlen, hload, hcrc, hcalc⟩, hmid⟩ :=
    legalFrameDecodes (encodedType i) (encodedPayload s i) t ((legalLength_iff ..).mp henc.1) hstate
  have hpayload : t.olen.toNat - 10 = (encodedPayload s i).length := by rw [henc.olen_toNat, Nat.add_sub_cancel]
  rw [henc.load_olen, henc.fcrc_eq, hpayload]
  refine ⟨⟨u, hrun, hevent, hstate', htype, hlen, ?_, hcrc, hcalc⟩, fun k hk hk' => ?_⟩
  · rw [hlen, hload, frame_payload]
  · rw [frame_length] at hk'
    obtain ⟨v, hrun', hnone, -⟩ := hmid k hk hk'
    exact ⟨v, hrun', by rw [hnone]; nofun⟩

end Sys2Proof.Machine
end
